-- ==== Sys2Proof/Word.lean ====
section
/-! DEFINITION. The words of the block (00_scope.md R12, R13, R14): bytes, samples, event words, binary64 patterns. -/

namespace Sys2Proof

/-- `u8`: one stream byte (R13, R54). -/
abbrev Byte := BitVec 8

/-- `u16`: an instant peak (R10, R13). -/
abbrev U16 := BitVec 16

/-- An input event word `ev[9:0]` (R52). -/
abbrev EventWord := BitVec 10

/-- `f64`: an IEEE 754 binary64 value, held as its bit pattern `bits(x)`, sign bit first (R12, R14). -/
abbrev F64 := BitVec 64

end Sys2Proof
end

