-- ==== Sys2Proof/Config.lean ====
section
/-! DEFINITION. What an implementation fixes: the three parameters of 00_scope.md section 3, their defaults, and the free
values the spec leaves open. -/

namespace Sys2Proof

/-- The implementation parameters, fixed at elaboration and immutable afterwards (R7, R8, R9, R34). They are held raw, as a
configuration offers them: `Machine.configCheck` (R100) says which are legal. `windowBytes` is an integer because R100 and
its vectors (95_test_vectors.md L2-8) check negative values too. DESIGN CHOICE, log entries 1 and 12, safe. -/
structure Params where
  /-- `WINDOW_BYTES` (R7). -/
  windowBytes : Int
  /-- `SAMPLE_RATE_HZ`, informational (R8). -/
  sampleRateHz : F64
  /-- `ALPHA`, the elasticity of the decay filter (R9). -/
  alpha : F64
deriving DecidableEq, Repr

/-- The value of `ALPHA` of this hardware: the binary64 number nearest 0.1 (R9). -/
def Params.alphaDefault : F64 := 0x3FB999999999999A#64

/-- The defaults of this spec: `WINDOW_BYTES` = 22048 (R7, 90_conflicts.md C3), `SAMPLE_RATE_HZ` = 44100.0 (R8), `ALPHA` (R9). -/
def Params.default : Params :=
  { windowBytes := 22048, sampleRateHz := 0x40E5888000000000#64, alpha := Params.alphaDefault }

/-- FREE VALUE: sign and payload of the NaN that a binary64 addition of these operands gives. IEEE 754 does not fix them,
and R14 says NaN payloads never arise in the block; log entry 6, safe. -/
opaque Config.freeNaNOfAdd : F64 → F64 → BitVec 52

/-- FREE VALUE: sign and payload of the NaN that a binary64 multiplication of these operands gives; log entry 6, safe. -/
opaque Config.freeNaNOfMul : F64 → F64 → BitVec 52

end Sys2Proof
end

