-- ==== Sys2Proof/Machine/Binary64.lean ====
section
/-! DEFINITION. IEEE 754 binary64 (00_scope.md R14): the patterns, the exact values they stand for, and addition, subtraction
and multiplication, each computed exactly on integers and rounded ONCE, to nearest, ties to even; subnormals are kept.

Every finite binary64 value is an integer number of units of 2^-1074, the least positive one. PRESUMED: R14 names IEEE 754
and leaves its definitions to that standard (93_implementation_defined.md G2); log entry 7. -/

namespace Sys2Proof.Machine.Binary64

/-- Sign bit, bit 63 (R12, R61). -/
def sign (x : F64) : Bool := x.msb

/-- Biased exponent, bits 62 to 52. -/
def expField (x : F64) : Nat := x.toNat / 2 ^ 52 % 2 ^ 11

/-- Trailing significand, bits 51 to 0. -/
def fracField (x : F64) : Nat := x.toNat % 2 ^ 52

def isFinite (x : F64) : Bool := expField x != 2047
def isNaN (x : F64) : Bool := expField x == 2047 && fracField x != 0
def isInf (x : F64) : Bool := expField x == 2047 && fracField x == 0

/-- The pattern of +infinity, which is also the least magnitude pattern that is not finite. -/
def infPattern : Nat := 2047 * 2 ^ 52

/-- Magnitude of a finite value in units of 2^-1074. -/
def magUnits (x : F64) : Nat :=
  if expField x = 0 then fracField x else (2 ^ 52 + fracField x) * 2 ^ (expField x - 1)

/-- A finite value in units of 2^-1074. -/
def units (x : F64) : Int := if sign x then -(magUnits x : Int) else (magUnits x : Int)

/-- The value with this sign and this magnitude pattern (bits 62 to 0). -/
def withSign (neg : Bool) (magPattern : Nat) : F64 :=
  BitVec.ofNat 64 ((if neg then 2 ^ 63 else 0) + magPattern)

/-- roundTiesToEven: the magnitude pattern nearest to `m` units of 2^-(1074 + k).

`s` low bits of `m` are dropped: enough to leave 53 bits, and at least the `k` bits below 2^-1074. The kept bits `q`, rounded
on the dropped ones, and the exponent `s - k` make the pattern as one sum, so that a carry out of the significand raises the
exponent, and a value beyond the largest finite one becomes infinity. -/
def roundMag (k m : Nat) : Nat :=
  let s := max k (Nat.log2 m + 1 - 53)
  let q := m / 2 ^ s
  let r := m % 2 ^ s
  let up := if 2 ^ s < 2 * r ∨ (2 * r = 2 ^ s ∧ q % 2 = 1) then 1 else 0
  min ((s - k) * 2 ^ 52 + (q + up)) infPattern

/-- A quiet NaN with a free sign and payload; log entry 6. -/
def nanOf (free : BitVec 52) : F64 :=
  free.extractLsb' 51 1 ++ (0xFFF#12 ++ free.extractLsb' 0 51)

/-- `a ⊕ b` on finite operands: an exact zero sum is -0 only where both operands are -0 (roundTiesToEven). -/
def addFinite (x y : F64) : F64 :=
  let z := units x + units y
  if z = 0 then withSign (sign x && sign y) 0 else withSign (decide (z < 0)) (roundMag 0 z.natAbs)

/-- `a ⊕ b` (R14). -/
def add (x y : F64) : F64 :=
  if isNaN x || isNaN y then nanOf (Config.freeNaNOfAdd x y)
  else if isInf x then
    if isInf y && sign x != sign y then nanOf (Config.freeNaNOfAdd x y) else x
  else if isInf y then y
  else addFinite x y

/-- The operand with its sign bit inverted. -/
def neg (x : F64) : F64 := x ^^^ 0x8000000000000000#64

/-- `a ⊖ b` (R14). -/
def sub (x y : F64) : F64 := add x (neg y)

/-- `a ⊗ b` on finite operands: the exact product has units of 2^-2148. -/
def mulFinite (x y : F64) : F64 :=
  withSign (sign x != sign y) (roundMag 1074 (magUnits x * magUnits y))

/-- `a ⊗ b` (R14). -/
def mul (x y : F64) : F64 :=
  if isNaN x || isNaN y then nanOf (Config.freeNaNOfMul x y)
  else if isInf x || isInf y then
    if magUnits x = 0 || magUnits y = 0 then nanOf (Config.freeNaNOfMul x y)
    else withSign (sign x != sign y) infPattern
  else mulFinite x y

/-- `toF64(n)` (R14): exact for `|n| ≤ 2^53`. -/
def ofInt (n : Int) : F64 := withSign (decide (n < 0)) (roundMag 0 (n.natAbs * 2 ^ 1074))

/-- The place of a value that is not a NaN in the numerical order; the two zeros share one place. -/
def orderKey (x : F64) : Int :=
  if sign x then -((x.toNat % 2 ^ 63 : Nat) : Int) else ((x.toNat % 2 ^ 63 : Nat) : Int)

/-- `x < y`; false where an operand is a NaN. -/
def lt (x y : F64) : Bool := !isNaN x && !isNaN y && decide (orderKey x < orderKey y)

/-- `x ≤ y`; false where an operand is a NaN. -/
def le (x y : F64) : Bool := !isNaN x && !isNaN y && decide (orderKey x ≤ orderKey y)

end Sys2Proof.Machine.Binary64
end

