-- ==== Sys2Proof/Machine/DecayFilter.lean ====
section
/-! DEFINITION. The running peak decay filter (42_decay_filter.md R85, R86). -/

namespace Sys2Proof.Machine

/-- `toF64(P)`: the instant peak as a binary64 value, exact (R85). -/
def peakToF64 (peak : U16) : F64 := Binary64.ofInt (peak.toNat : Int)

/-- `DecayUpdate(d, P)`: `d ⊕ (ALPHA ⊗ (toF64(P) ⊖ d))`, each operator rounded once (R86). The term-by-term form of the
source's formula is NOT this arithmetic (R88, 90_conflicts.md C4). (Irreducible, so that a proof about the machine does not
run the arithmetic; `unfold decayUpdate` opens it.) -/
@[irreducible] def decayUpdate (alpha d : F64) (peak : U16) : F64 :=
  let p := peakToF64 peak
  let x := Binary64.sub p d
  let y := Binary64.mul alpha x
  Binary64.add d y

end Sys2Proof.Machine
end

