-- ==== Sys2Proof/Syntax.lean ====
section
/-! DEFINITION. The events of the block, which take the place of instructions (30_encoding.md): one constructor per row of
spec/opcode_table.json. -/

namespace Sys2Proof

/-- An input event (R53). -/
inductive Instr where
  /-- BYTE: one stream byte, the DATA field unmodified (R54, R65). -/
  | byte (v : Byte)
  /-- EOS: end of the stream; its DATA field is ignored (R55, R66). -/
  | eos
  /-- FAULT: hard stream fault; its DATA field is ignored (R55, R67). -/
  | fault
  /-- RESERVED: KIND 0b11, no event of the block; the DATA bits are kept because the refusal records the event word
  (R56, R68, R99). -/
  | reserved (data : Byte)
deriving DecidableEq, Repr

end Sys2Proof
end

