-- ==== Sys2Proof/Machine/State.lean ====
section
/-! DEFINITION. The state of the machine (10_state.md R20 to R37), the reasons a step can stop, and the state after reset. -/

namespace Sys2Proof.Machine

/-- The channel index `c` (R16): L is the first sample of a group, R the second. -/
inductive Channel where
  | L
  | R
deriving DecidableEq, Repr

/-- A pair with one entry per channel (R16, R82). -/
@[ext] structure Stereo (α : Type) where
  left : α
  right : α
deriving DecidableEq, Repr

/-- `hold[0..2]`: the bytes at group positions 0, 1 and 2 of the group being assembled (R24). -/
@[ext] structure Hold where
  b0 : Byte
  b1 : Byte
  b2 : Byte
deriving DecidableEq, Repr

/-- The emitted tuple (inst_l, inst_r, dec_l, dec_r) (R33). -/
@[ext] structure OutTuple where
  instL : U16
  instR : U16
  decL : F64
  decR : F64
deriving DecidableEq, Repr

/-- One sample of the four input ports, as the host drives them during one step (R29). -/
@[ext] structure HostInput where
  /-- `rst`: reset request (R114). -/
  rst : Bool
  /-- `ev_valid`: the host offers an event (R64). -/
  evValid : Bool
  /-- `ev`: the event word offered (R52). -/
  ev : EventWord
  /-- `out_ready`: the host accepts the pending tuple (R92). -/
  outReady : Bool
deriving DecidableEq, Repr

/-- The conditions of R99. -/
inductive Condition where
  | none
  | streamEnded
  | streamFault
  | cfgWindowNotPositive
  | cfgWindowNotMultipleOf4
  | cfgRateNotPositive
  | cfgAlphaOutOfRange
  | refusedReservedEvent
deriving DecidableEq, Repr

/-- What the refusal mark records (R37, R99). R37 also lets an illegal configuration set the mark, while R100 says that no
state exists for one: the model refuses such a configuration (`Refusal.illegalConfiguration`), the mark stays as it is, and
no constructor stands here for it. DEDUCED, the model's reading, safe; log entry 4. -/
inductive RefusalCause where
  /-- Code 0x20: a reserved event word was accepted; the event word is the value recorded (R68, R99). -/
  | reservedEventKind (w : EventWord)
deriving DecidableEq, Repr

/-- The state: the tuple of R20, the two records beside it, the parameters (R34, constant) and the host's coming input. -/
@[ext]
structure State where
  /-- WINDOW_BYTES, SAMPLE_RATE_HZ and ALPHA; no step writes them (R34). Log entry 1. -/
  params : Params
  /-- `decayed[c]` (R21). -/
  decayed : Stereo F64
  /-- `inst[c]` (R22). -/
  inst : Stereo U16
  /-- `byte_count` (R23). -/
  byteCount : Nat
  /-- `hold[0..2]` (R24). -/
  hold : Hold
  /-- `status[1:0]` (R31). -/
  status : BitVec 2
  /-- `out_pending` (R32). -/
  outPending : Bool
  /-- `out_tuple` (R33). -/
  outTuple : OutTuple
  /-- `trace`: every tuple emitted since reset, in emission order (R33). -/
  trace : List OutTuple
  /-- The refusal mark (R37): `none` is clear. Log entry 3. -/
  refusal : Option RefusalCause
  /-- The coming samples of the input ports, the next one first; when none is left the host drives nothing. The MODEL's own
  field, log entry 2. -/
  input : List HostInput
deriving DecidableEq, Repr

/-- Why the machine stops with a fault. -/
inductive Fault where
  /-- `status` holds the code 0b11, which the block never produces (R31, 93_implementation_defined.md I19: "a model that reads
  it has an internal error"). Raised by every event that reads `status`; no run reaches it. Safe. -/
  | reservedStatus
deriving DecidableEq, Repr

/-- Why a step is refused. -/
inductive Refusal where
  /-- Raised only by an arm of `exec` for an event without a meaning; no arm is one now. Safe. -/
  | notModelled (mnemonic : String)
  /-- The configuration is illegal, so that no block and no step exists for it (R100); the codes in the order of R100.
  Raised by `step` and `elaborate`. Safe. -/
  | illegalConfiguration (codes : List Condition)
  /-- The run's refusal mark is set, and a run that set it stays refused (R37, R114): no event is given a meaning any more.
  Raised by every event accepted while the mark is set. Safe. -/
  | refusalRecorded (cause : RefusalCause)
deriving DecidableEq, Repr

/-- The reset tuple (0, 0, +0.0, +0.0) (R36). -/
def OutTuple.zero : OutTuple := { instL := 0, instR := 0, decL := 0, decR := 0 }

/-- The state right after the first reset of a machine built with the parameters `p`: every value of R36, the refusal mark
clear (R36, R37), and a host that offers nothing (DESIGN CHOICE, log entry 2). -/
def State.resetWith (p : Params) : State :=
  { params := p
    decayed := { left := 0, right := 0 }
    inst := { left := 0, right := 0 }
    byteCount := 0
    hold := { b0 := 0, b1 := 0, b2 := 0 }
    status := 0b00
    outPending := false
    outTuple := OutTuple.zero
    trace := []
    refusal := none
    input := [] }

/-- The machine right after reset, with the spec's default parameters (R7, R8, R9, R36). -/
def State.reset : State := State.resetWith Params.default

end Sys2Proof.Machine
end

