-- ==== Sys2Proof/Machine/Flags.lean ====
section
/-! DEFINITION. The status register, the acceptance condition and the output ports (10_state.md R28 to R33; 30_encoding.md
R61), and the condition codes (60_exceptions.md R99). -/

namespace Sys2Proof.Machine

/-- The code RUNNING of the status register (R31). -/
@[simp] abbrev statusRunning : BitVec 2 := 0b00#2
/-- The code ENDED (R31). -/
@[simp] abbrev statusEnded : BitVec 2 := 0b01#2
/-- The code FAULTED (R31). -/
@[simp] abbrev statusFaulted : BitVec 2 := 0b10#2
/-- The code the block never produces (R31). -/
@[simp] abbrev statusReserved : BitVec 2 := 0b11#2

/-- The port `ev_ready` (R30). -/
def State.evReady (s : State) : Bool := s.status == statusRunning && !s.outPending

/-- The port `out_valid` (R32). -/
def State.outValid (s : State) : Bool := s.outPending

/-- A terminal status: ENDED or FAULTED (R28, R31). -/
def State.terminal (s : State) : Bool := s.status == statusEnded || s.status == statusFaulted

/-- The tuple as the 160-bit word of the port `out` (R61). -/
def OutTuple.pack (t : OutTuple) : BitVec 160 := t.decR ++ (t.decL ++ (t.instR ++ t.instL))

/-- The port `out[159:0]` (R29, R61); the host must not read it while `out_valid = 0` (R33). -/
def State.outPort (s : State) : BitVec 160 := s.outTuple.pack

/-- The numeric code of a condition (R99). -/
def Condition.code : Condition → BitVec 8
  | .none => 0x00
  | .streamEnded => 0x01
  | .streamFault => 0x02
  | .cfgWindowNotPositive => 0x11
  | .cfgWindowNotMultipleOf4 => 0x12
  | .cfgRateNotPositive => 0x13
  | .cfgAlphaOutOfRange => 0x14
  | .refusedReservedEvent => 0x20

/-- The condition that the port `status` shows (R99, R105): the codes 0x01 and 0x02 are the terminal statuses. The code 0b11,
never produced, shows none. -/
def State.statusCondition (s : State) : Condition :=
  if s.status = statusEnded then .streamEnded
  else if s.status = statusFaulted then .streamFault
  else .none

/-- The condition that the refusal mark records (R37, R99). -/
def RefusalCause.condition : RefusalCause → Condition
  | .reservedEventKind _ => .refusedReservedEvent

end Sys2Proof.Machine
end

