-- ==== Sys2Proof/Machine/Operands.lean ====
section
/-! DEFINITION. Operand assembly: bytes into samples, samples into magnitudes (30_encoding.md R60; 41_peak_detect.md R75, R76,
R77, R83), and the per-channel view of a stereo pair (R16). -/

namespace Sys2Proof.Machine

/-- The entry of channel `c` (R16). -/
def Stereo.get {α : Type} (p : Stereo α) : Channel → α
  | .L => p.left
  | .R => p.right

/-- The pair with channel `c`'s entry replaced; the other lane is untouched (R82). -/
def Stereo.set {α : Type} (p : Stereo α) (c : Channel) (x : α) : Stereo α :=
  match c with
  | .L => { p with left := x }
  | .R => { p with right := x }

/-- `Decode16(lo, hi) := sext_16(hi : lo)`, little-endian (R41, R75). -/
def decode16 (lo hi : Byte) : Int := (hi ++ lo).toInt

/-- `DecodeGroup(b0, b1, b2, b3)`: left sample first, low byte first (R76, 90_conflicts.md C1). -/
def decodeGroup (b0 b1 b2 b3 : Byte) : Stereo Int :=
  { left := decode16 b0 b1, right := decode16 b2 b3 }

/-- `Abs16(s)`: the exact magnitude, stored as an unsigned value, so that -32768 gives 0x8000 (R77). -/
def abs16 (s : Int) : U16 := BitVec.ofNat 16 s.natAbs

/-- `max` on instant peaks, read as unsigned values (R13, R78). -/
def maxU16 (a b : U16) : U16 := if a.toNat ≤ b.toNat then b else a

/-- The group position of the next byte, `byte_count mod 4` (R25). -/
def State.phase (s : State) : Nat := s.byteCount % 4

/-- The complete groups of a window's bytes; the trailing 1 to 3 bytes form none (R43, R44). -/
def groupsOf : List Byte → List (Stereo Int)
  | b0 :: b1 :: b2 :: b3 :: rest => decodeGroup b0 b1 b2 b3 :: groupsOf rest
  | _ => []

/-- Folding one decoded group into a pair of peaks (R78, R83). -/
def foldGroup (peaks : Stereo U16) (g : Stereo Int) : Stereo U16 :=
  { left := maxU16 peaks.left (abs16 g.left), right := maxU16 peaks.right (abs16 g.right) }

/-- `Process(W, n)` with `n` the length of `W`: the reference window function (R83). -/
def process (window : List Byte) : Stereo U16 :=
  (groupsOf window).foldl foldGroup { left := 0, right := 0 }

end Sys2Proof.Machine
end

