-- ==== Sys2Proof/Machine/Ops.lean ====
section
/-! DEFINITION. The named operations on the state: every write of a state element goes through one of them. -/

namespace Sys2Proof.Machine

/-- `hold[k] <- v` for the positions 0 to 2; position 3 has no `hold` entry (R24). -/
def Hold.write (h : Hold) (k : Nat) (v : Byte) : Hold :=
  match k with
  | 0 => { h with b0 := v }
  | 1 => { h with b1 := v }
  | 2 => { h with b2 := v }
  | _ => h

/-- `hold[k] <- v` (R24, R65). -/
def State.writeHold (s : State) (k : Nat) (v : Byte) : State := { s with hold := s.hold.write k v }

/-- `Accumulate(c, s)`: `inst[c] <- max(inst[c], Abs16(s))` (R78). -/
def State.accumulate (s : State) (c : Channel) (sample : Int) : State :=
  { s with inst := s.inst.set c (maxU16 (s.inst.get c) (abs16 sample)) }

/-- `GroupDecodeAccumulate(b0, b1, b2, b3)` (R79). -/
def State.groupDecodeAccumulate (s : State) (b0 b1 b2 b3 : Byte) : State :=
  let g := decodeGroup b0 b1 b2 b3
  (s.accumulate .L g.left).accumulate .R g.right

/-- `byte_count <- byte_count + 1` (R65). -/
def State.countByte (s : State) : State := { s with byteCount := s.byteCount + 1 }

/-- One stream byte at its group position: kept in `hold`, or completing the group (R65). -/
def State.placeByte (s : State) (v : Byte) : State :=
  if s.phase < 3 then s.writeHold s.phase v
  else s.groupDecodeAccumulate s.hold.b0 s.hold.b1 s.hold.b2 v

/-- `decayed[c] <- DecayUpdate(decayed[c], inst[c])` for both channels (R89). -/
def State.updateDecay (s : State) : State :=
  { s with decayed :=
      { left := decayUpdate s.params.alpha s.decayed.left s.inst.left
        right := decayUpdate s.params.alpha s.decayed.right s.inst.right } }

/-- `Emit(t)` (R91). -/
def State.emit (s : State) (t : OutTuple) : State :=
  { s with outTuple := t, outPending := true, trace := s.trace ++ [t] }

/-- The tuple of the window as it stands: the instant peaks and the decayed peaks (R89, R90). -/
def State.windowTuple (s : State) : OutTuple :=
  { instL := s.inst.left, instR := s.inst.right, decL := s.decayed.left, decR := s.decayed.right }

/-- The start of the next window: `inst` and `byte_count` cleared, `hold` left alone (R80, R89). -/
def State.clearWindow (s : State) : State :=
  { s with inst := { left := 0, right := 0 }, byteCount := 0 }

/-- `Commit()`: decay, emit the values AFTER the update (R90), clear (R89). -/
def State.commit (s : State) : State :=
  let u := s.updateDecay
  (u.emit u.windowTuple).clearWindow

/-- The window is full (R65). -/
def State.windowFull (s : State) : Bool := (s.byteCount : Int) == s.params.windowBytes

/-- Commit where the byte just counted has filled the window (R65, R69). -/
def State.commitIfFull (s : State) : State := if s.windowFull then s.commit else s

/-- Entering a stream condition: the one way ENDED and FAULTED come about. `status` is written and nothing is saved; there
is no cause register, vector or handler (R103, R104), and the only return is reset (R106). -/
def State.enterStatus (s : State) (code : BitVec 2) : State := { s with status := code }

/-- Output acceptance: `out_pending <- 0`, `out_tuple` keeps its value, nothing else changes (R92). -/
def State.acceptOutput (s : State) : State := { s with outPending := false }

/-- `refuse(reason)`: the sticky refusal mark is set; a mark already set stays as it is (R15, R37). Log entry 3. -/
def State.markRefusal (s : State) (cause : RefusalCause) : State :=
  { s with refusal := some (s.refusal.getD cause) }

/-- Reset, in every status (R114): every value of R36. The parameters are immutable, the refusal mark is not cleared (R37,
90_conflicts.md C8), and the host's coming input is the host's. -/
def State.resetBlock (s : State) : State :=
  { State.resetWith s.params with refusal := s.refusal, input := s.input }

/-- Acceptance of an offered event (R64), shared by every event: held without any change while `ev_ready = 0`, else `effect`
as one atomic step (R46). Reading the reserved status code is an internal error (I19, log entry 5); an event accepted in a
run whose refusal mark is set has no meaning (R37, R114, log entry 3). -/
def acceptEvent (s : State) (effect : State → State) : Host.Outcome State Fault Refusal :=
  if s.status = statusReserved then .fault .reservedStatus
  else if s.evReady then
    match s.refusal with
    | some cause => .refused (.refusalRecorded cause)
    | none => .next (effect s)
  else .next s

end Sys2Proof.Machine
end

