-- ==== Sys2Proof/Machine/Stream.lean ====
section
/-! DEFINITION. The meanings of the stream ingest events (40_stream_ingest.md R65 to R68). -/

namespace Sys2Proof.Machine

/-- BYTE (R65): place the byte, count it, and commit where it fills the window. -/
def execByte (v : Byte) (s : State) : Host.Outcome State Fault Refusal :=
  acceptEvent s fun s => ((s.placeByte v).countByte).commitIfFull

/-- EOS (R66): commit the final window, be it partial or empty, then status ENDED. The bytes of an incomplete group are
dropped (R70). -/
def execEos (s : State) : Host.Outcome State Fault Refusal :=
  acceptEvent s fun s => s.commit.enterStatus statusEnded

/-- FAULT (R67, R104): no commit, no decay update, no emission; status FAULTED. -/
def execFault (s : State) : Host.Outcome State Fault Refusal :=
  acceptEvent s fun s => s.enterStatus statusFaulted

/-- RESERVED (R68): `refuse(ReservedEventKind(w))` with the event word recorded (R99). The refusal mark is all the rule
writes; what the hardware does is unspecified, and no later event of the run gets a meaning (R37). Log entry 3. -/
def execReserved (data : Byte) (s : State) : Host.Outcome State Fault Refusal :=
  acceptEvent s fun s => s.markRefusal (.reservedEventKind (0b11#2 ++ data))

end Sys2Proof.Machine
end

