-- ==== Sys2Proof/Machine/Dispatch.lean ====
section
/-! DEFINITION. One arm per event of spec/opcode_table.json. -/

namespace Sys2Proof.Machine

def exec (i : Instr) (s : State) : Host.Outcome State Fault Refusal :=
  match i with
  | .byte v => Sys2Proof.Machine.execByte v s
  | .eos => Sys2Proof.Machine.execEos s
  | .fault => Sys2Proof.Machine.execFault s
  | .reserved data => Sys2Proof.Machine.execReserved data s

end Sys2Proof.Machine
end

