-- ==== Sys2Proof/Decode.lean ====
section
/-! DEFINITION. Decoding of event words and its inverse (30_encoding.md R52 to R57, spec/opcode_table.json). -/

namespace Sys2Proof

/-- The field KIND, `ev[9:8]` (R52). -/
def kindOf (w : EventWord) : BitVec 2 := w.extractLsb' 8 2

/-- The field DATA, `ev[7:0]` (R52). -/
def dataOf (w : EventWord) : Byte := w.extractLsb' 0 8

/-- Decoding, total on the 1024 event words (R57). -/
def decode (w : EventWord) : Instr :=
  if kindOf w = 0b00#2 then .byte (dataOf w)
  else if kindOf w = 0b01#2 then .eos
  else if kindOf w = 0b10#2 then .fault
  else .reserved (dataOf w)

/-- Why a number is no event word. -/
inductive DecodeError where
  /-- An event is exactly one 10-bit word (R52, R59); raised by `decodeNat` for a number of more bits; safe. -/
  | widerThanTenBits (w : Nat)
deriving DecidableEq, Repr

/-- Decoding of a number: refused by name where it has more bits than the port `ev` (R29, R52). Log entry 10. -/
def decodeNat (w : Nat) : Except DecodeError Instr :=
  if w < 1024 then .ok (decode (BitVec.ofNat 10 w)) else .error (.widerThanTenBits w)

/-- The decoder on a word numbered as spec/opcode_table.json numbers it. There is one event format of one length (R59), so
the row's width says nothing more. -/
def decodeTableWord (_nbits w : Nat) : Option Instr :=
  match decodeNat w with
  | .ok i => some i
  | .error _ => none

/-- The event word of an event: KIND above DATA (R52, R53). EOS and FAULT carry DATA 0x00, which the host should send
(R55). -/
def encode : Instr → EventWord
  | .byte v => 0b00#2 ++ v
  | .eos => 0b01#2 ++ 0x00#8
  | .fault => 0b10#2 ++ 0x00#8
  | .reserved data => 0b11#2 ++ data

/-- A row of the table of R53. -/
structure EncodingRow where
  mnemonic : String
  pattern : EventWord
  mask : EventWord
deriving DecidableEq, Repr

/-- The table of R53, the same rows as spec/opcode_table.json. -/
def encodingTable : List EncodingRow :=
  [ { mnemonic := "BYTE", pattern := 0x000#10, mask := 0x300#10 },
    { mnemonic := "EOS", pattern := 0x100#10, mask := 0x300#10 },
    { mnemonic := "FAULT", pattern := 0x200#10, mask := 0x300#10 },
    { mnemonic := "RESERVED", pattern := 0x300#10, mask := 0x300#10 } ]

/-- A word selects the row whose `(w and mask) = match` (R53). -/
def EncodingRow.selects (r : EncodingRow) (w : EventWord) : Bool := w &&& r.mask == r.pattern

/-- The table's name of an event. -/
def Instr.mnemonic : Instr → String
  | .byte _ => "BYTE"
  | .eos => "EOS"
  | .fault => "FAULT"
  | .reserved _ => "RESERVED"

end Sys2Proof
end

