-- ==== Sys2Proof/Machine/Configuration.lean ====
section
/-! DEFINITION. Configuration legality (60_exceptions.md R100, R101), elaboration (70_reset_and_hazards.md R117) and the
informational refresh cadence (42_decay_filter.md R97). -/

namespace Sys2Proof.Machine

/-- `WINDOW_BYTES` is positive, and a multiple of 4 (R7): at most one code, the second test being in the else branch (R100). -/
def checkWindow (windowBytes : Int) : List Condition :=
  if ¬ 0 < windowBytes then [.cfgWindowNotPositive]
  else if windowBytes % 4 ≠ 0 then [.cfgWindowNotMultipleOf4]
  else []

/-- `SAMPLE_RATE_HZ` is finite and greater than 0 (R8, R100). -/
def checkRate (rate : F64) : List Condition :=
  if Binary64.isFinite rate && Binary64.lt 0 rate then [] else [.cfgRateNotPositive]

/-- `0 < ALPHA ≤ 0.5`; a NaN fails (R9, R100). -/
def checkAlpha (alpha : F64) : List Condition :=
  if Binary64.lt 0 alpha && Binary64.le alpha 0x3FE0000000000000#64 then [] else [.cfgAlphaOutOfRange]

/-- `ConfigCheck`: every applicable code, in order (R100, R101). -/
def configCheck (p : Params) : List Condition :=
  checkWindow p.windowBytes ++ checkRate p.sampleRateHz ++ checkAlpha p.alpha

/-- The primary cause of a configuration refusal (R101). -/
def primaryCause (p : Params) : Option Condition := (configCheck p).head?

/-- Elaboration and the first reset (R100, R115, R117): a legal configuration gives a block in the reset state, an illegal one
gives no block. -/
def elaborate (p : Params) : Host.Outcome State Fault Refusal :=
  match configCheck p with
  | [] => .next (State.resetWith p)
  | c :: cs => .refused (.illegalConfiguration (c :: cs))

/-- `GROUPS = WINDOW_BYTES / 4` (R11). -/
def groupsPerWindow (p : Params) : Int := p.windowBytes / 4

/-- `CNT_W`: the width that a build needs for `byte_count` (R11). -/
def counterWidth (p : Params) : Nat := max 2 (Nat.clog 2 p.windowBytes.toNat)

/-- The refresh cadence `WINDOW_BYTES / 4 / SAMPLE_RATE_HZ`, in seconds per window, as an exact rational. Informational: no
state, output or step depends on it (R97); log entry 13. -/
def refreshCadence (p : Params) : Rat :=
  (p.windowBytes : Rat) / 4 / ((Binary64.units p.sampleRateHz : Rat) / 2 ^ 1074)

end Sys2Proof.Machine
end

