-- ==== Sys2Proof/Machine/Fetch.lean ====
section
/-! DEFINITION. What one step takes in: the sample of the input ports, and which of them acts (10_state.md R29, R30;
60_exceptions.md R108, R113; 70_reset_and_hazards.md R116). -/

namespace Sys2Proof.Machine

/-- The host drives nothing: no reset, no offer, no acceptance (R112). -/
def HostInput.idle : HostInput := { rst := false, evValid := false, ev := 0, outReady := false }

/-- The host offers an event word (R64). -/
def HostInput.offer (w : EventWord) : HostInput := { HostInput.idle with evValid := true, ev := w }

/-- The host accepts the pending tuple (R92). -/
def HostInput.accept : HostInput := { HostInput.idle with outReady := true }

/-- The host asserts reset (R114). -/
def HostInput.reset : HostInput := { HostInput.idle with rst := true }

/-- The port sample of the next step; a host with nothing planned drives nothing. Log entry 2. -/
def State.sample (s : State) : HostInput := s.input.headD HostInput.idle

/-- The sample is used up: it is what the host drives in one step. -/
def State.dropInput (s : State) : State := { s with input := s.input.tail }

/-- The host's next sample replaced by an offer of `w`. -/
def State.offerNext (s : State) (w : EventWord) : State :=
  { s with input := HostInput.offer w :: s.input.tail }

/-- What a step takes in. -/
inductive Fetched where
  /-- No event is offered to the block: reset, output acceptance or waiting, done. -/
  | settled (t : State)
  /-- An event is offered. -/
  | event (i : Instr) (t : State)
  /-- There is no step (R100). -/
  | refused (r : Refusal)
deriving DecidableEq, Repr

/-- Which of the ports acts, in the order of R108: configuration refusal before everything, reset before an offered event
and before an acceptance (R116, R125), then output acceptance, which never combines with event acceptance (R92, log entry 9),
then the offered event. A sample with none of them is a wait (R112). -/
def fetch (s : State) : Fetched :=
  match configCheck s.params with
  | c :: cs => .refused (.illegalConfiguration (c :: cs))
  | [] =>
    if s.sample.rst then .settled s.dropInput.resetBlock
    else if s.sample.outReady && s.outValid then .settled s.dropInput.acceptOutput
    else if s.sample.evValid then .event (decode s.sample.ev) s.dropInput
    else .settled s.dropInput

end Sys2Proof.Machine
end

