-- ==== Sys2Proof/Machine/Step.lean ====
section
/-! DEFINITION. One step of the machine (00_scope.md R5): an event, a reset, an output acceptance, or a wait. -/

namespace Sys2Proof.Machine

/-- One step: take in the ports' sample, and run the offered event. -/
def step (s : State) : Host.Outcome State Fault Refusal :=
  match fetch s with
  | .settled t => .next t
  | .event i t => exec i t
  | .refused r => .refused r

/-- The host offers the event word `w` in the very next step. The block fetches nothing (R27): its next event is what the host
drives on `ev`, and this stands for that. The port has ten wires; log entries 2 and 10. -/
def State.withFetchWord (s : State) (_nbits w : Nat) : State := s.offerNext (BitVec.ofNat 10 w)

end Sys2Proof.Machine
end

