-- ==== Sys2Proof/Machine/TraceText.lean ====
section
/-! DEFINITION. The trace text, the block's assembler (30_encoding.md R62, R63): items, their expansion into the host's
actions, the host's schedule of port samples, and the reading of the text. No part of the hardware (D22): it writes down what
a host does. -/

namespace Sys2Proof.Machine

/-- A line of a trace: the items of R62 and the pseudo items of R63. -/
inductive TraceItem where
  | byte (imm : Nat)
  | eos
  | fault
  | reset
  | accept
  | group (l r : Int)
  | bytes (imms : List Nat)
  | zeros (n : Nat)
deriving DecidableEq, Repr

/-- What the host does in one step (R62). -/
inductive HostAction where
  | event (w : EventWord)
  | reset
  | accept
deriving DecidableEq, Repr

/-- Why a trace does not assemble (R62, R63). -/
inductive AsmError where
  /-- `<imm8>` outside 0 to 255. -/
  | byteOutOfRange (imm : Nat)
  /-- A `group` value outside [-32768, 32767]. -/
  | groupOutOfRange (l r : Int)
  /-- A line that is no item. -/
  | notAnItem (line : List Char)
deriving DecidableEq, Repr

/-- A signed 16-bit value (R63). -/
def isS16 (x : Int) : Bool := decide (-32768 ≤ x) && decide (x ≤ 32767)

/-- The items that assemble (R62, R63). -/
def TraceItem.wellFormed : TraceItem → Bool
  | .byte imm => decide (imm < 256)
  | .group l r => isS16 l && isS16 r
  | .bytes imms => imms.all fun imm => decide (imm < 256)
  | .eos => true
  | .fault => true
  | .reset => true
  | .accept => true
  | .zeros _ => true

/-- `lo(x) = u[7:0]` with `u = x mod 65536` (R63). -/
def loByte (x : Int) : Byte := (BitVec.ofInt 16 x).extractLsb' 0 8

/-- `hi(x) = u[15:8]` (R63). -/
def hiByte (x : Int) : Byte := (BitVec.ofInt 16 x).extractLsb' 8 8

/-- The four bytes of `group l, r` (R63). -/
def groupBytes (l r : Int) : List Byte := [loByte l, hiByte l, loByte r, hiByte r]

/-- `byte v` as the host's action (R62). -/
def HostAction.byte (v : Byte) : HostAction := .event (encode (.byte v))

/-- The expansion of an item (R62, R63). -/
def TraceItem.expand : TraceItem → List HostAction
  | .byte imm => [.byte (BitVec.ofNat 8 imm)]
  | .eos => [.event (encode .eos)]
  | .fault => [.event (encode .fault)]
  | .reset => [.reset]
  | .accept => [.accept]
  | .group l r => (groupBytes l r).map .byte
  | .bytes imms => imms.map fun imm => .byte (BitVec.ofNat 8 imm)
  | .zeros n => (List.replicate (4 * n) (0x00#8)).map .byte

/-- The assembly error of an item that is not well formed (R62, R63). -/
def TraceItem.error : TraceItem → AsmError
  | .byte imm => .byteOutOfRange imm
  | .group l r => .groupOutOfRange l r
  | .bytes imms => .byteOutOfRange ((imms.find? fun imm => decide (256 ≤ imm)).getD 0)
  | .eos => .notAnItem []
  | .fault => .notAnItem []
  | .reset => .notAnItem []
  | .accept => .notAnItem []
  | .zeros _ => .notAnItem []

/-- Assembling an item: its expansion, or its error. -/
def TraceItem.assemble (i : TraceItem) : Except AsmError (List HostAction) :=
  if i.wellFormed then .ok i.expand else .error i.error

/-- Assembling a list of items, stopping at the first error of these. Log entry 11. -/
def assembleItems : List TraceItem → Except AsmError (List HostAction)
  | [] => .ok []
  | i :: rest =>
    match i.assemble with
    | .error e => .error e
    | .ok actions =>
      match assembleItems rest with
      | .error e => .error e
      | .ok more => .ok (actions ++ more)

/-- The port sample of a host action (R29). -/
def HostAction.sample : HostAction → HostInput
  | .event w => .offer w
  | .reset => .reset
  | .accept => .accept

/-- The host's schedule. A trace with no `accept` line is run under the eager host, which accepts a tuple in the step after
it is emitted, before it offers the next event (R62): an acceptance after every action, which has no effect where no tuple is
pending (R92). Log entry 11. -/
def schedule (actions : List HostAction) : List HostInput :=
  if actions.contains .accept then actions.map HostAction.sample
  else actions.flatMap fun a => [a.sample, .accept]

/-- White space within a line. -/
def isBlank (c : Char) : Bool := c == ' ' || c == '\t' || c == '\r'

/-- A text without white space at its two ends. -/
def trimChars (cs : List Char) : List Char :=
  ((cs.dropWhile isBlank).reverse.dropWhile isBlank).reverse

/-- A text cut at every separator character. -/
def splitChars (sep : Char) : List Char → List (List Char)
  | [] => [[]]
  | c :: cs =>
    if c == sep then [] :: splitChars sep cs
    else
      match splitChars sep cs with
      | [] => [[c]]
      | part :: parts => (c :: part) :: parts

/-- The value of a digit of base 10 or 16. -/
def digitValue (base : Nat) (c : Char) : Option Nat :=
  let n := c.toNat
  let v :=
    if 48 ≤ n ∧ n ≤ 57 then some (n - 48)
    else if 65 ≤ n ∧ n ≤ 70 then some (n - 55)
    else if 97 ≤ n ∧ n ≤ 102 then some (n - 87)
    else none
  match v with
  | some d => if d < base then some d else none
  | none => none

/-- A non-empty run of digits, after the digits already read. -/
def readDigits (base : Nat) : Nat → List Char → Option Nat
  | acc, [] => some acc
  | acc, c :: cs =>
    match digitValue base c with
    | some d => readDigits base (acc * base + d) cs
    | none => none

/-- A decimal number. -/
def readDecimal : List Char → Option Nat
  | [] => none
  | cs => readDigits 10 0 cs

/-- `<imm8>` before its range is checked: hexadecimal after `0x`, or decimal (R62). -/
def readImm : List Char → Option Nat
  | '0' :: 'x' :: c :: cs => readDigits 16 0 (c :: cs)
  | cs => readDecimal cs

/-- A decimal integer with an optional minus sign (R63); a plus sign is not read. Log entry 11. -/
def readInt : List Char → Option Int
  | '-' :: cs => (readDecimal cs).map fun n => -(n : Int)
  | cs => (readDecimal cs).map fun n => (n : Int)

/-- All of a list, or nothing. -/
def allSome {α : Type} : List (Option α) → Option (List α)
  | [] => some []
  | none :: _ => none
  | some a :: rest => (allSome rest).map fun as => a :: as

/-- The item of a mnemonic and its operands, in lower case (R62, R63). R63 gives `zeros <n>` no radix: DESIGN CHOICE, `<n>`
is decimal only, so that `zeros 0x2` is no item. Safe; log entry 11. -/
def readItem (name : List Char) (operands : List (List Char)) : Option TraceItem :=
  match operands with
  | [] =>
    if name = ['e', 'o', 's'] then some .eos
    else if name = ['f', 'a', 'u', 'l', 't'] then some .fault
    else if name = ['r', 'e', 's', 'e', 't'] then some .reset
    else if name = ['a', 'c', 'c', 'e', 'p', 't'] then some .accept
    else none
  | a :: rest =>
    if name = ['b', 'y', 't', 'e', 's'] then (allSome ((a :: rest).map readImm)).map .bytes
    else
      match rest with
      | [] =>
        if name = ['b', 'y', 't', 'e'] then (readImm a).map .byte
        else if name = ['z', 'e', 'r', 'o', 's'] then (readDecimal a).map .zeros
        else none
      | [b] =>
        if name = ['g', 'r', 'o', 'u', 'p'] then
          match readInt a, readInt b with
          | some l, some r => some (.group l r)
          | _, _ => none
        else none
      | _ => none

/-- A line of a trace: nothing after its comment is taken off, or one item (R62). Log entry 11. -/
def readLine (line : List Char) : Except AsmError (Option TraceItem) :=
  match trimChars (line.takeWhile fun c => c != ';') with
  | [] => .ok none
  | body =>
    let name := body.takeWhile fun c => !isBlank c
    let operands :=
      match trimChars (body.dropWhile fun c => !isBlank c) with
      | [] => []
      | text => (splitChars ',' text).map trimChars
    match readItem name operands with
    | some i => .ok (some i)
    | none => .error (.notAnItem line)

/-- The items of a list of lines. -/
def readLines : List (List Char) → Except AsmError (List TraceItem)
  | [] => .ok []
  | line :: rest =>
    match readLine line with
    | .error e => .error e
    | .ok found =>
      match readLines rest with
      | .error e => .error e
      | .ok items => .ok (found.toList ++ items)

/-- Assembling the text of a trace into the host's actions (R62, R63). The spec does not say which error a text with several
gives: DESIGN CHOICE, all lines are read before any item is assembled, so that the first line that is no item is reported
before an out-of-range value of any line, an earlier one too. Safe; log entry 11. -/
def assembleText (text : List Char) : Except AsmError (List HostAction) :=
  match readLines (splitChars '\n' text) with
  | .error e => .error e
  | .ok items => assembleItems items

end Sys2Proof.Machine
end

