-- ==== Sys2Proof/Safety.lean ====
section
/-! DEFINITION. The terms in which claims speak of runs: the observation and the end of a run (70_reset_and_hazards.md R123),
the invariants of every reachable state (10_state.md R38), and the running of a window's bytes. -/

namespace Sys2Proof.Machine

/-- The observation of a run (R123). -/
structure Observation where
  trace : List OutTuple
  status : BitVec 2
  refusal : Option RefusalCause
deriving DecidableEq, Repr

/-- The observation of the run a state stands in. -/
def State.observe (s : State) : Observation :=
  { trace := s.trace, status := s.status, refusal := s.refusal }

/-- A run has ended: a terminal status and no tuple pending (R123). -/
def State.runEnded (s : State) : Bool := s.terminal && !s.outPending

/-- The configuration is legal (R100). -/
abbrev State.Legal (s : State) : Prop := configCheck s.params = []

/-- The next event is accepted and has its meaning: `ev_ready = 1` (R30) and no refusal recorded, the premise R37 gives every
claim about the block. -/
abbrev State.Accepting (s : State) : Prop :=
  s.status = statusRunning ∧ s.outPending = false ∧ s.refusal = none

/-- `ev_ready = 0` with a status the block produces: the cases in which an event is held (R30, R64). -/
abbrev State.Holding (s : State) : Prop :=
  s.status = statusEnded ∨ s.status = statusFaulted ∨ (s.status = statusRunning ∧ s.outPending = true)

/-- An instant peak lies in [0, 32768] (R22, R38(a)). -/
def peakInRange (p : U16) : Bool := decide (p.toNat ≤ 32768)

/-- A decayed peak is finite, not -0.0, and in [0, 32768] (R21, R38(b), R94). -/
def decayInRange (d : F64) : Bool :=
  Binary64.isFinite d && d != 0x8000000000000000#64 && Binary64.le 0 d && Binary64.le d 0x40E0000000000000#64

/-- The values of a tuple are in range (R33). -/
def OutTuple.inRange (t : OutTuple) : Bool :=
  peakInRange t.instL && peakInRange t.instR && decayInRange t.decL && decayInRange t.decR

/-- R38(a), R38(c), and a status the block produces (R31). -/
def State.windowInv (s : State) : Bool :=
  decide ((s.byteCount : Int) < s.params.windowBytes) &&
    (peakInRange s.inst.left && peakInRange s.inst.right) && s.status != statusReserved

/-- `out_tuple` is the last element of `trace`, or the reset tuple where nothing was emitted, and a pending tuple stands in
`trace` (R32, R33, R91). -/
def State.outputInv (s : State) : Bool :=
  s.outTuple == s.trace.getLast?.getD OutTuple.zero && (!s.outPending || !s.trace.isEmpty)

/-- R38(b) for the decayed peaks, and the range of every value emitted (R33). -/
def State.decayInv (s : State) : Bool :=
  (decayInRange s.decayed.left && decayInRange s.decayed.right) && s.outTuple.inRange && s.trace.all OutTuple.inRange

/-- A list of bytes given to the block as accepted BYTE events, one after the other (R69). -/
def feedBytes : List Byte → State → Host.Outcome State Fault Refusal
  | [], s => .next s
  | v :: rest, s =>
    match exec (.byte v) s with
    | .next t => feedBytes rest t
    | .fault r => .fault r
    | .refused r => .refused r

/-- The port samples of a host that offers these bytes, one a step (R29, R64). -/
def offerBytes (window : List Byte) : List HostInput :=
  window.map fun v => HostInput.offer (encode (.byte v))

/-- The two states differ at most in `hold`, and agree on the entries that the current group has written (R24): the relation
of "a stale hold value is never observable". -/
def State.sameButStaleHold (s t : State) : Prop :=
  { s with hold := t.hold } = t ∧
    (1 ≤ s.phase → s.hold.b0 = t.hold.b0) ∧ (2 ≤ s.phase → s.hold.b1 = t.hold.b1) ∧
      (3 ≤ s.phase → s.hold.b2 = t.hold.b2)

/-- Two outcomes of one kind, with related next states or the same reason. -/
def outcomesRelated (R : State → State → Prop) :
    Host.Outcome State Fault Refusal → Host.Outcome State Fault Refusal → Prop
  | .next s, .next t => R s t
  | .fault a, .fault b => a = b
  | .refused a, .refused b => a = b
  | _, _ => False

end Sys2Proof.Machine
end

