-- ==== Sys2Proof/WellFormed.lean ====
section
/-! DEFINITION. Which events a host may offer (30_encoding.md R56, 60_exceptions.md R113). -/

namespace Sys2Proof

/-- A host may offer BYTE, EOS and FAULT with any operand; it must never offer a word of KIND 0b11 (R56, R113). -/
def Instr.wellFormed : Instr → Bool
  | .byte _ => true
  | .eos => true
  | .fault => true
  | .reserved _ => false

end Sys2Proof
end

