-- ==== Sys2Proof/Certificates/Slice0/Obligations.lean ====
section
/-! DEFINITION. The statements about the model, each formalising rules of the spec. A statement that rests on a choice of the
model says so in its docstring and names the log entry. -/

open Sys2Proof Sys2Proof.Machine

/-! ### Encoding of events (30_encoding.md) -/

/-- Decoding inverts encoding on every event with every operand, and encoding inverts decoding on every word, up to the
ignored DATA bits of EOS and FAULT, which the encoder sets to 0x00 (R52, R54, R55, R57). -/
def Obligations.DecodeAndEncodeAgree : Prop :=
  (∀ i : Instr, decode (encode i) = i) ∧
    ∀ w : EventWord,
      encode (decode w) = if w.extractLsb' 8 2 = 0b01#2 ∨ w.extractLsb' 8 2 = 0b10#2 then w &&& 0x300#10 else w

/-- R57: decoding is total, by KIND, with DATA unmodified. The operand of RESERVED is the model's record of the word (R68).
-/
def Obligations.DecodingFollowsKind : Prop :=
  ∀ w : EventWord,
    (w.extractLsb' 8 2 = 0b00#2 → decode w = .byte (w.extractLsb' 0 8)) ∧
    (w.extractLsb' 8 2 = 0b01#2 → decode w = .eos) ∧
    (w.extractLsb' 8 2 = 0b10#2 → decode w = .fault) ∧
    (w.extractLsb' 8 2 = 0b11#2 → decode w = .reserved (w.extractLsb' 0 8))

/-- R53: a word w selects the row whose (w and mask) = match, and that row is the decoded event's own. -/
def Obligations.WordSelectsRowOfItsEvent : Prop :=
  encodingTable.map (fun r => (r.mnemonic, r.pattern, r.mask)) =
      [("BYTE", 0x000#10, 0x300#10), ("EOS", 0x100#10, 0x300#10), ("FAULT", 0x200#10, 0x300#10),
        ("RESERVED", 0x300#10, 0x300#10)] ∧
    ∀ w : EventWord, ∀ r ∈ encodingTable, w &&& r.mask = r.pattern ↔ r.mnemonic = (decode w).mnemonic

/-- R55: EOS is every word in 0x100 to 0x1FF and FAULT every word in 0x200 to 0x2FF, with the same effect for any DATA. -/
def Obligations.EosAndFaultIgnoreData : Prop :=
  ∀ w : EventWord,
    (decode w = .eos ↔ 0x100 ≤ w.toNat ∧ w.toNat ≤ 0x1FF) ∧
    (decode w = .fault ↔ 0x200 ≤ w.toNat ∧ w.toNat ≤ 0x2FF)

/-- The words of 95_test_vectors.md L2-1. -/
def Obligations.SpecWordsDecode : Prop :=
  decode 0x000#10 = .byte 0x00#8 ∧ decode 0x0FF#10 = .byte 0xFF#8 ∧ decode 0x080#10 = .byte 0x80#8 ∧
    decode 0x100#10 = .eos ∧ decode 0x1FF#10 = .eos ∧ decode 0x200#10 = .fault ∧ decode 0x2AB#10 = .fault ∧
    decode 0x300#10 = .reserved 0x00#8 ∧ decode 0x3A5#10 = .reserved 0xA5#8

/-- R63: the expansion of `group l, r` assembles, as `lo(l) hi(l) lo(r) hi(r)`, and decodes back to the one group (l, r). -/
def Obligations.GroupItemDecodesBack : Prop :=
  ∀ l r : Int, -32768 ≤ l → l ≤ 32767 → -32768 ≤ r → r ≤ 32767 →
    (TraceItem.group l r).assemble =
      .ok ([BitVec.ofInt 8 l, BitVec.ofInt 8 (l / 256), BitVec.ofInt 8 r, BitVec.ofInt 8 (r / 256)].map
        fun v => HostAction.event (0b00#2 ++ v)) ∧
    groupsOf (groupBytes l r) = [{ left := l, right := r }]

/-! ### Steps and the host's ports (10_state.md, 60_exceptions.md, 70_reset_and_hazards.md) -/

/-- A step with an offered event word runs the event it decodes to, on the state whose port sample is used up; nothing else
happens in it. Neither reset nor an output acceptance takes the step (R108, R116, R92). -/
def Obligations.StepRunsOfferedEvent : Prop :=
  ∀ s : State, s.Legal → s.sample.rst = false → s.sample.evValid = true →
    (s.sample.outReady = false ∨ s.outPending = false) →
    step s = exec (decode s.sample.ev) { s with input := s.input.tail }

/-- R114, R116: reset is accepted in every status, whatever else the host drives in the step, and writes every element; the
refusal mark and the parameters stay. -/
def Obligations.ResetWritesEveryElement : Prop :=
  ∀ s : State, s.Legal → s.sample.rst = true →
    step s = .next
      { params := s.params
        decayed := { left := 0, right := 0 }
        inst := { left := 0, right := 0 }
        byteCount := 0
        hold := { b0 := 0x00, b1 := 0x00, b2 := 0x00 }
        status := statusRunning
        outPending := false
        outTuple := { instL := 0, instR := 0, decL := 0, decR := 0 }
        trace := []
        refusal := s.refusal
        input := s.input.tail }

/-- R36: the values after reset, and the refusal mark, clear in the initial state and not cleared by a later reset. -/
def Obligations.ResetStateHasSpecValues : Prop :=
  State.reset.decayed = { left := 0x0000000000000000#64, right := 0x0000000000000000#64 } ∧
    State.reset.inst = { left := 0, right := 0 } ∧ State.reset.byteCount = 0 ∧
    State.reset.hold = { b0 := 0x00, b1 := 0x00, b2 := 0x00 } ∧ State.reset.status = 0b00#2 ∧
    State.reset.outPending = false ∧ State.reset.outTuple = { instL := 0, instR := 0, decL := 0, decR := 0 } ∧
    State.reset.trace = [] ∧ State.reset.refusal = none ∧ ∀ s : State, s.resetBlock.refusal = s.refusal

/-- R92: acceptance clears `out_pending` in every status and changes nothing else, an event offered in the same step is not
accepted, and `out_ready` has no effect while no tuple is pending. -/
def Obligations.OutputAcceptanceClearsPending : Prop :=
  ∀ s : State, s.Legal → s.sample.rst = false → s.sample.outReady = true →
    (s.outPending = true → step s = .next { s with outPending := false, input := s.input.tail }) ∧
    (s.outPending = false →
      step s = step { s with input := { s.sample with outReady := false } :: s.input.tail })

/-- R30, R64: `ev_ready` is RUNNING and no tuple pending; while it is 0, in every status the block produces, an offered
event is held and nothing changes. (In the code 0b11, which the block never produces, an event faults: log entry 5.) -/
def Obligations.HeldEventsChangeNothing : Prop :=
  ∀ (i : Instr) (s : State),
    (s.evReady = true ↔ s.status = 0b00#2 ∧ s.outPending = false) ∧
    (s.evReady = false → s.status ≠ 0b11#2 → exec i s = .next s)

/-- R112, R71: a step in which the host drives nothing changes nothing of the block, and a host with nothing planned leaves
the whole state as it is. -/
def Obligations.IdleStepChangesNothing : Prop :=
  ∀ s : State, s.Legal →
    (s.sample.rst = false → s.sample.outReady = false → s.sample.evValid = false →
      step s = .next { s with input := s.input.tail }) ∧
    (s.input = [] → step s = .next s)

/-- R100: which codes the check reports, in the order of the codes, and what elaboration does with them. A rate or an ALPHA
is read by its pattern: positive and finite is 1 to 0x7FEF…, at most 0.5 is up to 0x3FE0…. -/
def Obligations.ConfigCheckReportsEveryCode : Prop :=
  ∀ p : Params,
    (Condition.cfgWindowNotPositive ∈ configCheck p ↔ p.windowBytes ≤ 0) ∧
    (Condition.cfgWindowNotMultipleOf4 ∈ configCheck p ↔ 0 < p.windowBytes ∧ ¬ (4 : Int) ∣ p.windowBytes) ∧
    (Condition.cfgRateNotPositive ∈ configCheck p ↔
      ¬ (1 ≤ p.sampleRateHz.toNat ∧ p.sampleRateHz.toNat < 0x7FF0000000000000)) ∧
    (Condition.cfgAlphaOutOfRange ∈ configCheck p ↔ ¬ (1 ≤ p.alpha.toNat ∧ p.alpha.toNat ≤ 0x3FE0000000000000)) ∧
    (∀ c ∈ configCheck p, c.code ∈ [0x11#8, 0x12#8, 0x13#8, 0x14#8]) ∧
    (configCheck p).Pairwise (fun a b => a.code < b.code) ∧
    (configCheck p = [] → elaborate p = .next (State.resetWith p)) ∧
    (configCheck p ≠ [] → elaborate p = .refused (.illegalConfiguration (configCheck p)))

/-- R100, R108.1: with an illegal configuration no step exists, whatever the state and the host's input (log entry 4). -/
def Obligations.IllegalConfigurationHasNoStep : Prop :=
  ∀ s : State, configCheck s.params ≠ [] → step s = .refused (.illegalConfiguration (configCheck s.params))

/-- An event that reads the status code 0b11 faults: the model's form of "a model that reads it has an internal error"
(93_implementation_defined.md I19, log entry 5). -/
def Obligations.ReservedStatusFaults : Prop :=
  ∀ (i : Instr) (s : State), s.status = 0b11#2 → exec i s = .fault .reservedStatus

/-- "A run that set it stays refused" (R114): an event accepted while the refusal mark is set is refused by name; the
model's reading, log entry 3. -/
def Obligations.MarkedRunStaysRefused : Prop :=
  ∀ (i : Instr) (s : State) (c : RefusalCause), s.status = 0b00#2 → s.outPending = false → s.refusal = some c →
    exec i s = .refused (.refusalRecorded c)

/-- R102: under a legal configuration, with a status the block produces and no refusal recorded, every step completes: no
event raises an exception, for any bytes, any values and any host input. -/
def Obligations.LegalRunsNeverStop : Prop :=
  ∀ s : State, s.Legal → s.status ≠ 0b11#2 → s.refusal = none → ∃ t, step s = .next t

/-! ### The events (40_stream_ingest.md) -/

/-- R65: the word of KIND 0b00 is BYTE of its DATA; a BYTE is held while `ev_ready = 0`, and an accepted one completes. At
the group positions 0 to 2 it is kept in `hold`; at position 3 the group is decoded and folded into the peaks, and where the
byte fills the window the window is committed in the same step, with the decayed peaks updated from the peaks that include
this group. Everything not written here is unchanged. -/
def Obligations.BytePlacesCountsAndCommits : Prop :=
  ∀ (v : Byte) (s : State), decode (0b00#2 ++ v) = .byte v ∧ (s.Holding → exec (.byte v) s = .next s) ∧
    (s.Accepting → s.Legal →
    let instL : U16 := BitVec.ofNat 16 (max s.inst.left.toNat (decode16 s.hold.b0 s.hold.b1).natAbs)
    let instR : U16 := BitVec.ofNat 16 (max s.inst.right.toNat (decode16 s.hold.b2 v).natAbs)
    let decL := decayUpdate s.params.alpha s.decayed.left instL
    let decR := decayUpdate s.params.alpha s.decayed.right instR
    let t : OutTuple := { instL := instL, instR := instR, decL := decL, decR := decR }
    (s.byteCount % 4 = 0 →
      exec (.byte v) s = .next { s with hold := { s.hold with b0 := v }, byteCount := s.byteCount + 1 }) ∧
    (s.byteCount % 4 = 1 →
      exec (.byte v) s = .next { s with hold := { s.hold with b1 := v }, byteCount := s.byteCount + 1 }) ∧
    (s.byteCount % 4 = 2 →
      exec (.byte v) s = .next { s with hold := { s.hold with b2 := v }, byteCount := s.byteCount + 1 }) ∧
    (s.byteCount % 4 = 3 → (s.byteCount : Int) + 1 ≠ s.params.windowBytes →
      exec (.byte v) s =
        .next { s with inst := { left := instL, right := instR }, byteCount := s.byteCount + 1 }) ∧
    (s.byteCount % 4 = 3 → (s.byteCount : Int) + 1 = s.params.windowBytes →
      exec (.byte v) s =
        .next { s with
          decayed := { left := decL, right := decR }
          inst := { left := 0, right := 0 }
          byteCount := 0
          outTuple := t
          outPending := true
          trace := s.trace ++ [t] }))

/-- R66, "commit the final window and end": every word of KIND 0b01 is EOS; an EOS is held while `ev_ready = 0`, and an
accepted one commits the window as it stands, whatever its count (an empty window with its peaks (0, 0) of R80 too), and then
sets ENDED; `hold`, with the bytes of an incomplete group, is not read and not written. -/
def Obligations.EosCommitsThenEnds : Prop :=
  ∀ s : State, (∀ data : Byte, decode (0b01#2 ++ data) = .eos) ∧ (s.Holding → exec .eos s = .next s) ∧ (s.Accepting →
    let decL := decayUpdate s.params.alpha s.decayed.left s.inst.left
    let decR := decayUpdate s.params.alpha s.decayed.right s.inst.right
    let t : OutTuple := { instL := s.inst.left, instR := s.inst.right, decL := decL, decR := decR }
    exec .eos s =
      .next { s with
        decayed := { left := decL, right := decR }
        inst := { left := 0, right := 0 }
        byteCount := 0
        outTuple := t
        outPending := true
        trace := s.trace ++ [t]
        status := 0b01#2 })

/-- R67: every word of KIND 0b10 is FAULT; a FAULT is held while `ev_ready = 0`, and an accepted one sets FAULTED and
changes nothing else: no commit, no decay update, no emission. -/
def Obligations.FaultOnlySetsFaulted : Prop :=
  ∀ s : State, (∀ data : Byte, decode (0b10#2 ++ data) = .fault) ∧ (s.Holding → exec .fault s = .next s) ∧
    (s.Accepting → exec .fault s = .next { s with status := 0b10#2 })

/-- R68: a reserved word is held, and so never refused, while `ev_ready = 0`, and an accepted one sets the refusal mark,
with the event word recorded (R99), and writes nothing else. The model's reading of `refuse`, log entry 3. -/
def Obligations.ReservedSetsRefusalMark : Prop :=
  ∀ (d : Byte) (s : State), decode (0b11#2 ++ d) = .reserved d ∧ (s.Holding → exec (.reserved d) s = .next s) ∧
    (s.Accepting →
    exec (.reserved d) s = .next { s with refusal := some (.reservedEventKind (0x300#10 ||| d.setWidth 10)) })

/-- The frame of the four events: what BYTE, EOS, FAULT and RESERVED leave unchanged when they answer a next state. There is
no memory (R39). The parameters and the host's input are never written; `hold` only by BYTE; `status` only by EOS and FAULT;
the refusal mark only by RESERVED; the peaks and the count only by BYTE and EOS; the decayed peaks, the output register and
`out_pending` only by an event that emits. -/
def Obligations.EventsFrame : Prop :=
  ∀ (i : Instr) (s t : State), exec i s = .next t →
    t.params = s.params ∧ t.input = s.input ∧
    ((∀ v, i ≠ .byte v) → t.hold = s.hold) ∧
    (i ≠ .eos → i ≠ .fault → t.status = s.status) ∧
    ((∀ d, i ≠ .reserved d) → t.refusal = s.refusal) ∧
    ((∀ v, i ≠ .byte v) → i ≠ .eos → t.inst = s.inst ∧ t.byteCount = s.byteCount ∧ t.trace = s.trace) ∧
    (t.trace = s.trace →
      t.decayed = s.decayed ∧ t.outTuple = s.outTuple ∧ t.outPending = s.outPending)

/-- R28, R31: EOS sets ENDED and FAULT sets FAULTED, from RUNNING; no other event writes the status. -/
def Obligations.StatusChangesOnlyFromRunning : Prop :=
  ∀ (i : Instr) (s t : State), exec i s = .next t →
    t.status = s.status ∨
      (s.status = 0b00#2 ∧ ((i = .eos ∧ t.status = 0b01#2) ∨ (i = .fault ∧ t.status = 0b10#2)))

/-! ### Peak detection (41_peak_detect.md) -/

/-- R75: the high byte is bits 15:8, in two's complement, and every byte pair gives a value in [-32768, 32767]. -/
def Obligations.Decode16IsLittleEndian : Prop :=
  ∀ lo hi : Byte,
    decode16 lo hi =
      (if hi.toNat < 128 then 256 * (hi.toNat : Int) + lo.toNat else 256 * (hi.toNat : Int) + lo.toNat - 65536) ∧
    -32768 ≤ decode16 lo hi ∧ decode16 lo hi ≤ 32767

/-- R77: the exact magnitude of every sample as an unsigned value, and its bit-level form. -/
def Obligations.Abs16IsExactMagnitude : Prop :=
  (∀ x : Int, -32768 ≤ x → x ≤ 32767 → ((abs16 x).toNat : Int) = |x|) ∧
    ∀ p : BitVec 16, (abs16 p.toInt).toNat = if p.msb = false then p.toNat else 65536 - p.toNat

/-- R78: `inst[c]` becomes the maximum of itself and the magnitude, and the other channel and every other element are
unchanged. -/
def Obligations.AccumulateTakesMaximum : Prop :=
  ∀ (s : State) (x : Int), -32768 ≤ x → x ≤ 32767 →
    s.accumulate .L x =
        { s with inst := { s.inst with left := BitVec.ofNat 16 (max s.inst.left.toNat x.natAbs) } } ∧
      s.accumulate .R x =
        { s with inst := { s.inst with right := BitVec.ofNat 16 (max s.inst.right.toNat x.natAbs) } }

/-- R82: lane L depends only on the bytes 0 and 1 and on its own peak and decayed peak, lane R only on the bytes 2 and 3 and
its own. Two states that share ALPHA and one lane share that lane after a group and after a commit. -/
def Obligations.LanesAreIndependent : Prop :=
  ∀ (s t : State) (b0 b1 b2 b3 c0 c1 c2 c3 : Byte),
    (s.inst.left = t.inst.left →
      (s.groupDecodeAccumulate b0 b1 b2 b3).inst.left = (t.groupDecodeAccumulate b0 b1 c2 c3).inst.left) ∧
    (s.inst.right = t.inst.right →
      (s.groupDecodeAccumulate b0 b1 b2 b3).inst.right = (t.groupDecodeAccumulate c0 c1 b2 b3).inst.right) ∧
    (s.params.alpha = t.params.alpha → s.inst.left = t.inst.left → s.decayed.left = t.decayed.left →
      s.commit.decayed.left = t.commit.decayed.left) ∧
    (s.params.alpha = t.params.alpha → s.inst.right = t.inst.right → s.decayed.right = t.decayed.right →
      s.commit.decayed.right = t.commit.decayed.right)

/-- R84: from the start of a window, BYTE events short of a full window leave in `inst` what the reference function of R83
gives for the bytes so far, the trailing bytes of an incomplete group not counted, and emit nothing. -/
def Obligations.StreamingMatchesReference : Prop :=
  ∀ (window : List Byte) (s : State), s.Accepting → s.Legal → s.byteCount = 0 → s.inst = { left := 0, right := 0 } →
    (window.length : Int) < s.params.windowBytes →
    ∃ h : Hold,
      feedBytes window s = .next { s with inst := process window, byteCount := window.length, hold := h }

/-- R69, R84, R89, on steps: a host that offers the bytes of a full window, one a step, gets exactly one tuple, of the
reference peaks of those bytes and the decayed peaks updated by them, and the block stands at the start of the next window.
That the host's offers are a list of port samples, one a step, is the model's choice (log entry 2). -/
def Obligations.FullWindowEmitsReferenceTuple : Prop :=
  ∀ (window : List Byte) (rest : List HostInput) (s : State), s.Accepting → s.Legal → s.byteCount = 0 →
    s.inst = { left := 0, right := 0 } → (window.length : Int) = s.params.windowBytes →
    s.input = offerBytes window ++ rest →
    let peaks := process window
    let decL := decayUpdate s.params.alpha s.decayed.left peaks.left
    let decR := decayUpdate s.params.alpha s.decayed.right peaks.right
    let t : OutTuple := { instL := peaks.left, instR := peaks.right, decL := decL, decR := decR }
    ∃ h : Hold,
      Host.Core.run Sys2Proof.core window.length s =
        .next { s with
          decayed := { left := decL, right := decR }
          hold := h
          outTuple := t
          outPending := true
          trace := s.trace ++ [t]
          input := rest }

/-! ### The decay filter (42_decay_filter.md) -/

/-- R85: every instant peak converts exactly; the value of ALPHA of this hardware. -/
def Obligations.PeakConversionIsExact : Prop :=
  Params.default.alpha = 0x3FB999999999999A#64 ∧ peakToF64 32768 = 0x40E0000000000000#64 ∧ peakToF64 0 = 0 ∧
    ∀ peak : U16, Binary64.isFinite (peakToF64 peak) = true ∧ Binary64.units (peakToF64 peak) = peak.toNat * 2 ^ 1074

/-- Addition and subtraction of finite values (R14), in units of 2^-1074: where the result is finite, no finite value lies
nearer to the exact sum, and where another value lies equally near, the result's significand is even. The definitions of the
operations are taken from IEEE 754, which R14 names: log entry 7, PRESUMED. -/
def Obligations.AddAndSubRoundToNearestEven : Prop :=
  ∀ x y z : F64, Binary64.isFinite x = true → Binary64.isFinite y = true → Binary64.isFinite z = true →
    (Binary64.isFinite (Binary64.add x y) = true →
      let r := Binary64.add x y
      let exact := Binary64.units x + Binary64.units y
      |Binary64.units r - exact| ≤ |Binary64.units z - exact| ∧
        (|Binary64.units r - exact| = |Binary64.units z - exact| → Binary64.units r ≠ Binary64.units z →
          r.toNat % 2 = 0)) ∧
    (Binary64.isFinite (Binary64.sub x y) = true →
      let r := Binary64.sub x y
      let exact := Binary64.units x - Binary64.units y
      |Binary64.units r - exact| ≤ |Binary64.units z - exact| ∧
        (|Binary64.units r - exact| = |Binary64.units z - exact| → Binary64.units r ≠ Binary64.units z →
          r.toNat % 2 = 0))

/-- Multiplication of finite values (R14), in units of 2^-2148: where the result is finite, no finite value lies nearer to
the exact product, and where another value lies equally near, the result's significand is even. The definition of the
operation is taken from IEEE 754, which R14 names: log entry 7, PRESUMED. -/
def Obligations.MulRoundsToNearestEven : Prop :=
  ∀ x y z : F64, Binary64.isFinite x = true → Binary64.isFinite y = true → Binary64.isFinite z = true →
    Binary64.isFinite (Binary64.mul x y) = true →
    let r := Binary64.mul x y
    let exact := Binary64.units x * Binary64.units y
    |Binary64.units r * 2 ^ 1074 - exact| ≤ |Binary64.units z * 2 ^ 1074 - exact| ∧
      (|Binary64.units r * 2 ^ 1074 - exact| = |Binary64.units z * 2 ^ 1074 - exact| →
        Binary64.units r ≠ Binary64.units z → r.toNat % 2 = 0)

/-- R94: from a value in range and an instant peak in range the filter gives a value in range: finite, in [0, 32768], not
-0.0, for every legal ALPHA. -/
def Obligations.DecayStaysInRange : Prop :=
  ∀ (alpha d : F64) (peak : U16), checkAlpha alpha = [] → decayInRange d = true → peak.toNat ≤ 32768 →
    decayInRange (decayUpdate alpha d peak) = true

/-- R95(a), R95(b) for every legal ALPHA: the decayed peak moves toward the instant peak and never past it. -/
def Obligations.DecayMovesTowardPeak : Prop :=
  ∀ (alpha d : F64) (peak : U16), checkAlpha alpha = [] → decayInRange d = true → peak.toNat ≤ 32768 →
    let p := peakToF64 peak
    let d' := decayUpdate alpha d peak
    (Binary64.le d p = true → Binary64.le d d' = true ∧ Binary64.le d' p = true) ∧
      (Binary64.le p d = true → Binary64.le p d' = true ∧ Binary64.le d' d = true)

/-- R95, the last part: under a constant instant peak the decayed peaks of successive windows stay on their side of it, and
stop changing after finitely many windows. -/
def Obligations.ConstantPeakReachesFixedPoint : Prop :=
  ∀ (alpha d : F64) (peak : U16), checkAlpha alpha = [] → decayInRange d = true → peak.toNat ≤ 32768 →
    let after : Nat → F64 := fun n => (fun x => decayUpdate alpha x peak)^[n] d
    (Binary64.le d (peakToF64 peak) = true → ∀ n, Binary64.le (after n) (peakToF64 peak) = true) ∧
      (Binary64.le (peakToF64 peak) d = true → ∀ n, Binary64.le (peakToF64 peak) (after n) = true) ∧
      ∃ n : Nat, ∀ m : Nat, n ≤ m → after m = after n

/-- R87(a): the instant peak itself is a fixed point. -/
def Obligations.InstantPeakIsFixedPoint : Prop :=
  ∀ (alpha : F64) (peak : U16), checkAlpha alpha = [] → peak.toNat ≤ 32768 →
    decayUpdate alpha (peakToF64 peak) peak = peakToF64 peak

/-- R98: the first update from +0.0 is the one product ALPHA ⊗ toF64(P), bit for bit. -/
def Obligations.FirstUpdateIsAlphaTimesPeak : Prop :=
  (∀ (alpha : F64) (peak : U16), checkAlpha alpha = [] → peak.toNat ≤ 32768 →
    decayUpdate alpha 0 peak = Binary64.mul alpha (peakToF64 peak)) ∧
  decayUpdate 0x3FB999999999999A#64 0 32768 = 0x40A999999999999A#64

/-- R96(c), for the ALPHA of this hardware: silence lowers the decayed peak strictly down to 4 units of 2^-1074 and no
further. -/
def Obligations.SilenceDecaysStrictly : Prop :=
  ∀ d : F64, decayInRange d = true →
    (5 ≤ d.toNat → Binary64.lt (decayUpdate Params.alphaDefault d 0) d = true ∧
      4 ≤ (decayUpdate Params.alphaDefault d 0).toNat) ∧
    (d.toNat ≤ 4 → decayUpdate Params.alphaDefault d 0 = d)

/-- R61: where each field of the tuple stands in the port `out`. -/
def Obligations.OutPortPacksTuple : Prop :=
  ∀ s : State,
    s.outPort.extractLsb' 0 16 = s.outTuple.instL ∧ s.outPort.extractLsb' 16 16 = s.outTuple.instR ∧
      s.outPort.extractLsb' 32 64 = s.outTuple.decL ∧ s.outPort.extractLsb' 96 64 = s.outTuple.decR

/-! ### Whole-machine rules -/

/-- R38(a), R38(c), R31 at reset, with R33 and R38(b), for every legal configuration. -/
def Obligations.ResetMeetsInvariants : Prop :=
  ∀ p : Params, configCheck p = [] →
    (State.resetWith p).windowInv = true ∧ (State.resetWith p).outputInv = true ∧ (State.resetWith p).decayInv = true

/-- R38(a), R38(c), R31: every step keeps the peaks in [0, 32768], the count below WINDOW_BYTES, and the status off 0b11. -/
def Obligations.StepKeepsWindowInvariant : Prop :=
  ∀ s t : State, s.windowInv = true → step s = .next t → t.windowInv = true

/-- R32, R33, R91: every step keeps `out_tuple` the last element of `trace`, and a pending tuple in `trace`. -/
def Obligations.StepKeepsOutputInvariant : Prop :=
  ∀ s t : State, s.outputInv = true → step s = .next t → t.outputInv = true

/-- R38(b), R33: every step keeps the decayed peaks, and every emitted value, in range. -/
def Obligations.StepKeepsDecayInvariant : Prop :=
  ∀ s t : State, s.windowInv = true → s.decayInv = true → step s = .next t → t.decayInv = true

/-- R126: in ENDED or FAULTED a step that is not a reset completes, and changes nothing but `out_pending`, by an acceptance
of a pending tuple; offered events are held. -/
def Obligations.TerminalStatusesAreInert : Prop :=
  ∀ s : State, s.Legal → s.status = 0b01#2 ∨ s.status = 0b10#2 → s.sample.rst = false →
    step s = .next { s with
      outPending := s.outPending && !s.sample.outReady
      input := s.input.tail }

/-- R37, 90_conflicts.md C8: a refusal mark that is set is never cleared or changed by a later step, a reset included. -/
def Obligations.RefusalMarkIsSticky : Prop :=
  ∀ (s t : State) (c : RefusalCause), s.refusal = some c → step s = .next t → t.refusal = some c

/-- R34: no step changes the parameters. -/
def Obligations.ParametersNeverChange : Prop :=
  ∀ s t : State, step s = .next t → t.params = s.params

/-- R91, R49: without a reset, a step leaves the trace alone, and with it the decayed peaks (R93) and the output register,
or appends the one tuple that it makes pending, of the decayed values after the update (R90); it never does so while a tuple
is pending. -/
def Obligations.TraceGrowsByCommittedTuples : Prop :=
  ∀ s t : State, s.sample.rst = false → step s = .next t →
    (t.trace = s.trace ∧ t.decayed = s.decayed ∧ t.outTuple = s.outTuple) ∨
    (t.trace = s.trace ++ [t.outTuple] ∧ s.outPending = false ∧ t.outPending = true ∧
      t.decayed.left = decayUpdate s.params.alpha s.decayed.left t.outTuple.instL ∧
      t.decayed.right = decayUpdate s.params.alpha s.decayed.right t.outTuple.instR ∧
      t.outTuple.decL = t.decayed.left ∧ t.outTuple.decR = t.decayed.right ∧
      t.inst = { left := 0, right := 0 } ∧ t.byteCount = 0)

/-- R24: a `hold` entry that the current group has not written is never observable: two states that differ only in such
entries step to states that differ only in such entries, or stop for the same reason. -/
def Obligations.StaleHoldIsUnobservable : Prop :=
  ∀ s t : State, s.sameButStaleHold t → outcomesRelated State.sameButStaleHold (step s) (step t)

/-- R71: how many steps pass between the host's actions does not matter. A schedule and the same schedule without its idle
samples lead to the same outcome. A schedule is the model's list of port samples, one a step: log entry 2. -/
def Obligations.PacingIsInvisible : Prop :=
  ∀ (s : State) (schedule : List HostInput), s.Legal →
    let busy := schedule.filter fun p => p != HostInput.idle
    Host.Core.run Sys2Proof.core schedule.length ({ s with input := schedule } : State) =
      Host.Core.run Sys2Proof.core busy.length ({ s with input := busy } : State)

/-- R11: `byte_count` fits the width that a build needs for it. -/
def Obligations.CounterFitsItsWidth : Prop :=
  ∀ s : State, s.windowInv = true → s.byteCount < 2 ^ counterWidth s.params ∧ 2 ≤ counterWidth s.params
end

