-- ==== Sys2Proof/Laws/Binary64.lean ====
section
/-! SUPPORT. The rounding of binary64 arithmetic, said once: which values a magnitude pattern stands for, that rounding is
exact on representable values, monotone, and nearest. -/

namespace Sys2Proof.Machine.Binary64

/-! ### Magnitude patterns and their values -/

/-- The value, in units of 2^-1074, of a magnitude pattern (bits 62 to 0). -/
def magOf (p : Nat) : Nat := if p / 2 ^ 52 = 0 then p else (2 ^ 52 + p % 2 ^ 52) * 2 ^ (p / 2 ^ 52 - 1)

theorem magOf_zero : magOf 0 = 0 := rfl

/-- A pattern below 2^53 is its own value: the subnormals and the first binade. -/
theorem magOf_small {p : Nat} (h : p < 2 ^ 53) : magOf p = p := by
  unfold magOf
  split
  · rfl
  · have : p / 2 ^ 52 = 1 := by omega
    simp only [this]
    omega

/-- The pattern that rounding builds as one sum stands for the significand shifted by the exponent. -/
theorem magOf_sum {t q : Nat} (hq : q ≤ 2 ^ 53) (h : t = 0 ∨ 2 ^ 52 ≤ q) : magOf (t * 2 ^ 52 + q) = q * 2 ^ t := by
  rcases Nat.lt_or_ge q (2 ^ 53) with hlt | hge
  · rcases Nat.eq_zero_or_pos t with rfl | ht
    · simpa using magOf_small (by omega : 0 * 2 ^ 52 + q < 2 ^ 53)
    · have hq' : 2 ^ 52 ≤ q := by omega
      have h1 : (t * 2 ^ 52 + q) / 2 ^ 52 = t + 1 := by omega
      have h2 : (t * 2 ^ 52 + q) % 2 ^ 52 = q - 2 ^ 52 := by omega
      unfold magOf
      rw [h1, h2, if_neg (by omega), Nat.add_sub_cancel, Nat.add_sub_cancel' hq']
  · have hq' : q = 2 ^ 53 := by omega
    subst hq'
    have h1 : (t * 2 ^ 52 + 2 ^ 53) / 2 ^ 52 = t + 2 := by omega
    have h2 : (t * 2 ^ 52 + 2 ^ 53) % 2 ^ 52 = 0 := by omega
    unfold magOf
    rw [h1, h2, if_neg (by omega), show t + 2 - 1 = t + 1 by omega, Nat.add_zero, Nat.pow_succ 2 52,
      Nat.mul_assoc, Nat.mul_comm 2, Nat.pow_succ 2 t]

theorem magOf_lt_succ (p : Nat) : magOf p < magOf (p + 1) := by
  have hd : p = p / 2 ^ 52 * 2 ^ 52 + p % 2 ^ 52 := by omega
  rcases Nat.eq_zero_or_pos (p / 2 ^ 52) with h0 | hpos
  · rw [magOf_small (by omega), magOf_small (by omega)]
    omega
  · have hm : p % 2 ^ 52 < 2 ^ 52 := Nat.mod_lt _ (by norm_num)
    obtain ⟨t, ht⟩ : ∃ t, p / 2 ^ 52 = t + 1 := ⟨p / 2 ^ 52 - 1, (Nat.sub_add_cancel hpos).symm⟩
    generalize p % 2 ^ 52 = f at hd hm
    rw [ht, Nat.add_mul, Nat.one_mul, Nat.add_assoc] at hd
    subst hd
    rw [Nat.add_assoc, magOf_sum (by omega) (by omega), magOf_sum (by omega) (by omega)]
    exact Nat.mul_lt_mul_of_pos_right (by omega) (by positivity)

theorem magOf_strictMono : StrictMono magOf := strictMono_nat_of_lt_succ magOf_lt_succ

theorem magOf_le_iff {p p' : Nat} : magOf p ≤ magOf p' ↔ p ≤ p' := magOf_strictMono.le_iff_le

theorem magOf_lt_iff {p p' : Nat} : magOf p < magOf p' ↔ p < p' := magOf_strictMono.lt_iff_lt

/-! ### The parts of a pattern -/

theorem toNat_withSign {n : Bool} {m : Nat} (h : m < 2 ^ 63) :
    (withSign n m).toNat = (if n then 2 ^ 63 else 0) + m := by
  unfold withSign
  rw [BitVec.toNat_ofNat]
  split <;> omega

theorem sign_eq (x : F64) : sign x = decide (2 ^ 63 ≤ x.toNat) := by
  simp [sign, BitVec.msb_eq_decide]

@[simp] theorem sign_withSign {n : Bool} {m : Nat} (h : m < 2 ^ 63) : sign (withSign n m) = n := by
  rw [sign_eq, toNat_withSign h]
  cases n
  · simpa using h
  · simp

theorem toNat_withSign_mod {n : Bool} {m : Nat} (h : m < 2 ^ 63) : (withSign n m).toNat % 2 ^ 63 = m := by
  rw [toNat_withSign h]
  split <;> omega

/-- A value is its sign with its magnitude pattern. -/
theorem withSign_sign (x : F64) : withSign (sign x) (x.toNat % 2 ^ 63) = x := by
  apply BitVec.eq_of_toNat_eq
  rw [toNat_withSign (Nat.mod_lt _ (by norm_num)), sign_eq]
  have := x.isLt
  simp only [decide_eq_true_eq]
  split <;> omega

theorem expField_eq (x : F64) : expField x = x.toNat % 2 ^ 63 / 2 ^ 52 := by
  unfold expField; omega

theorem magUnits_eq (x : F64) : magUnits x = magOf (x.toNat % 2 ^ 63) := by
  have hf : fracField x = x.toNat % 2 ^ 63 % 2 ^ 52 := by unfold fracField; omega
  unfold magUnits magOf
  rw [expField_eq, hf]
  split
  · omega
  · rfl

@[simp] theorem magUnits_withSign {n : Bool} {m : Nat} (h : m < 2 ^ 63) : magUnits (withSign n m) = magOf m := by
  rw [magUnits_eq, toNat_withSign_mod h]

theorem isFinite_iff (x : F64) : isFinite x = true ↔ x.toNat % 2 ^ 63 < infPattern := by
  unfold isFinite infPattern
  rw [expField_eq, bne_iff_ne]
  omega

theorem not_nan_inf_of_finite {x : F64} (h : isFinite x = true) : isNaN x = false ∧ isInf x = false := by
  unfold isFinite at h
  unfold isNaN isInf
  simp_all

/-- The numerical order of finite values is the order of their units. -/
theorem orderKey_le_iff (x y : F64) : orderKey x ≤ orderKey y ↔ units x ≤ units y := by
  unfold orderKey units
  rw [magUnits_eq, magUnits_eq]
  generalize x.toNat % 2 ^ 63 = p
  generalize y.toNat % 2 ^ 63 = q
  have h1 := @magOf_le_iff p q
  have h2 := @magOf_le_iff q p
  have h3 := @magOf_le_iff p 0
  have h4 := @magOf_le_iff q 0
  rw [magOf_zero] at h3 h4
  cases sign x <;> cases sign y <;> simp <;> omega

/-! ### Rounding -/

/-- The low bits that `roundMag` drops. -/
def dropBits (k m : Nat) : Nat := max k (Nat.log2 m + 1 - 53)

/-- The significand after rounding. -/
def roundedSig (k m : Nat) : Nat :=
  m / 2 ^ dropBits k m +
    if 2 ^ dropBits k m < 2 * (m % 2 ^ dropBits k m) ∨
        (2 * (m % 2 ^ dropBits k m) = 2 ^ dropBits k m ∧ m / 2 ^ dropBits k m % 2 = 1) then 1 else 0

theorem roundMag_eq (k m : Nat) :
    roundMag k m = min ((dropBits k m - k) * 2 ^ 52 + roundedSig k m) infPattern := rfl

theorem le_dropBits (k m : Nat) : k ≤ dropBits k m := le_max_left _ _

theorem sig_lt (k m : Nat) : m / 2 ^ dropBits k m < 2 ^ 53 := by
  rw [Nat.div_lt_iff_lt_mul (by positivity), ← Nat.pow_add]
  calc m < 2 ^ (Nat.log2 m + 1) := Nat.lt_log2_self
    _ ≤ 2 ^ (53 + dropBits k m) := Nat.pow_le_pow_right (by norm_num) (by unfold dropBits; omega)

theorem sig_ge {k m : Nat} (h : k < dropBits k m) : 2 ^ 52 ≤ m / 2 ^ dropBits k m := by
  have hd : dropBits k m = Nat.log2 m + 1 - 53 := by unfold dropBits at h ⊢; omega
  have hm : m ≠ 0 := by rintro rfl; simp [dropBits] at h
  rw [Nat.le_div_iff_mul_le (by positivity), ← Nat.pow_add, hd,
    show 52 + (Nat.log2 m + 1 - 53) = Nat.log2 m by omega]
  exact Nat.log2_self_le hm

theorem roundedSig_cases (k m : Nat) :
    roundedSig k m = m / 2 ^ dropBits k m ∨ roundedSig k m = m / 2 ^ dropBits k m + 1 := by
  unfold roundedSig
  split <;> simp

theorem roundedSig_le (k m : Nat) : roundedSig k m ≤ 2 ^ 53 := by
  have := sig_lt k m
  rcases roundedSig_cases k m with h | h <;> omega

theorem dropBits_mono {k m m' : Nat} (h : m ≤ m') : dropBits k m ≤ dropBits k m' := by
  have : Nat.log2 m ≤ Nat.log2 m' := by
    rw [Nat.log2_eq_log_two, Nat.log2_eq_log_two]; exact Nat.log_mono_right h
  unfold dropBits
  omega

theorem roundMag_le_inf (k m : Nat) : roundMag k m ≤ infPattern := by
  rw [roundMag_eq]; exact min_le_right _ _

theorem infPattern_lt : infPattern < 2 ^ 63 := by unfold infPattern; norm_num

theorem roundMag_lt (k m : Nat) : roundMag k m < 2 ^ 63 := lt_of_le_of_lt (roundMag_le_inf k m) infPattern_lt

/-- Rounding is monotone. -/
theorem roundMag_mono (k : Nat) {m m' : Nat} (h : m ≤ m') : roundMag k m ≤ roundMag k m' := by
  rw [roundMag_eq, roundMag_eq]
  refine min_le_min_right _ ?_
  have hk := le_dropBits k m
  rcases Nat.lt_or_eq_of_le (dropBits_mono (k := k) h) with hlt | heq
  · have h1 := roundedSig_le k m
    have h2 := sig_ge (k := k) (m := m') (by omega)
    have h3 : m' / 2 ^ dropBits k m' ≤ roundedSig k m' := by
      rcases roundedSig_cases k m' with h | h <;> omega
    have h4 : dropBits k m - k + 1 ≤ dropBits k m' - k := by omega
    nlinarith
  · have hsig : roundedSig k m ≤ roundedSig k m' := by
      unfold roundedSig
      rw [← heq]
      have hq : m / 2 ^ dropBits k m ≤ m' / 2 ^ dropBits k m := Nat.div_le_div_right h
      rcases Nat.lt_or_eq_of_le hq with hq | hq
      · split <;> split <;> omega
      · have hr : m % 2 ^ dropBits k m ≤ m' % 2 ^ dropBits k m := by
          have e1 := Nat.div_add_mod m (2 ^ dropBits k m)
          have e2 := Nat.div_add_mod m' (2 ^ dropBits k m)
          rw [hq] at e1
          omega
        rw [hq]
        split <;> split <;> omega
    rw [heq]
    omega

/-- Rounding is exact on the values of finite patterns. -/
theorem roundMag_exact (k : Nat) {p : Nat} (hp : p ≤ infPattern) : roundMag k (magOf p * 2 ^ k) = p := by
  have key : ∀ t q : Nat, q < 2 ^ 53 → (t = 0 ∨ 2 ^ 52 ≤ q) → p = t * 2 ^ 52 + q →
      roundMag k (magOf p * 2 ^ k) = p := by
    intro t q hq ht hpq
    have hm : magOf p * 2 ^ k = q * 2 ^ (t + k) := by
      rw [hpq, magOf_sum hq.le ht, Nat.pow_add, Nat.mul_assoc]
    have hdrop : dropBits k (magOf p * 2 ^ k) = t + k := by
      rw [hm]
      rcases Nat.eq_zero_or_pos q with rfl | hq0
      · have : t = 0 := by omega
        simp [dropBits, this]
      · have hlog : Nat.log2 (q * 2 ^ (t + k)) = Nat.log2 q + (t + k) := by
          rw [Nat.log2_eq_log_two, Nat.log2_eq_log_two]
          clear hm
          induction t + k with
          | zero => simp
          | succ n ih =>
            rw [Nat.pow_succ, ← Nat.mul_assoc, Nat.log_mul_base (by norm_num) (by positivity), ih]
            omega
        have h53 : Nat.log2 q < 53 := (Nat.log2_lt (by omega)).mpr hq
        unfold dropBits
        rw [hlog]
        rcases ht with rfl | ht
        · omega
        · have : 52 ≤ Nat.log2 q := (Nat.le_log2 (by omega)).mpr ht
          omega
    have hq' : magOf p * 2 ^ k / 2 ^ (t + k) = q := by rw [hm]; exact Nat.mul_div_cancel _ (by positivity)
    have hr' : magOf p * 2 ^ k % 2 ^ (t + k) = 0 := by rw [hm]; exact Nat.mul_mod_left _ _
    have hsig : roundedSig k (magOf p * 2 ^ k) = q := by
      unfold roundedSig
      rw [hdrop, hq', hr', if_neg]
      · rfl
      · have : 0 < 2 ^ (t + k) := by positivity
        omega
    rw [roundMag_eq, hdrop, hsig, Nat.add_sub_cancel, ← hpq]
    exact min_eq_left hp
  rcases Nat.eq_zero_or_pos (p / 2 ^ 52) with h0 | hpos
  · exact key 0 p (by omega) (Or.inl rfl) (by omega)
  · exact key (p / 2 ^ 52 - 1) (2 ^ 52 + p % 2 ^ 52) (by omega) (Or.inr (by omega)) (by omega)

/-- A quantity at most a pattern's value rounds to at most that pattern. -/
theorem roundMag_le {k m p : Nat} (hp : p ≤ infPattern) (h : m ≤ magOf p * 2 ^ k) : roundMag k m ≤ p :=
  roundMag_exact k hp ▸ roundMag_mono k h

/-- A quantity at least a pattern's value rounds to at least that pattern. -/
theorem le_roundMag {k m p : Nat} (hp : p ≤ infPattern) (h : magOf p * 2 ^ k ≤ m) : p ≤ roundMag k m := by
  have := roundMag_mono k h
  rwa [roundMag_exact k hp] at this

/-- The two neighbouring patterns between which a quantity lies; its rounding is the nearer one, and at equal distance the even
one. -/
theorem roundMag_between (k m : Nat) :
    ∃ p, magOf p * 2 ^ k ≤ m ∧ m < magOf (p + 1) * 2 ^ k ∧
      ((roundMag k m = min p infPattern ∧ 2 * m ≤ (magOf p + magOf (p + 1)) * 2 ^ k) ∨
       (roundMag k m = min (p + 1) infPattern ∧ (magOf p + magOf (p + 1)) * 2 ^ k ≤ 2 * m)) ∧
      (2 * m = (magOf p + magOf (p + 1)) * 2 ^ k → roundMag k m % 2 = 0) := by
  have hk := le_dropBits k m
  have hq := sig_lt k m
  have ht : dropBits k m - k = 0 ∨ 2 ^ 52 ≤ m / 2 ^ dropBits k m := by
    rcases Nat.lt_or_eq_of_le hk with h | h
    · exact Or.inr (sig_ge h)
    · exact Or.inl (by omega)
  have hpow : 2 ^ (dropBits k m - k) * 2 ^ k = 2 ^ dropBits k m := by rw [← Nat.pow_add, Nat.sub_add_cancel hk]
  have v0 := magOf_sum (t := dropBits k m - k) hq.le ht
  have v1 := magOf_sum (t := dropBits k m - k) (q := m / 2 ^ dropBits k m + 1) (by omega) (by omega)
  have dm := Nat.div_add_mod m (2 ^ dropBits k m)
  have hlt : m % 2 ^ dropBits k m < 2 ^ dropBits k m := Nat.mod_lt _ (by positivity)
  refine ⟨(dropBits k m - k) * 2 ^ 52 + m / 2 ^ dropBits k m, ?_, ?_, ?_, ?_⟩
  · rw [v0, Nat.mul_assoc, hpow, Nat.mul_comm]; omega
  · rw [Nat.add_assoc, v1, Nat.mul_assoc, hpow, Nat.add_mul, Nat.mul_comm]; omega
  · rw [Nat.add_assoc ((dropBits k m - k) * 2 ^ 52), v0, v1, roundMag_eq]
    have hsum : (m / 2 ^ dropBits k m * 2 ^ (dropBits k m - k) +
        (m / 2 ^ dropBits k m + 1) * 2 ^ (dropBits k m - k)) * 2 ^ k =
        2 * (2 ^ dropBits k m * (m / 2 ^ dropBits k m)) + 2 ^ dropBits k m := by
      rw [← Nat.add_mul, Nat.mul_assoc, hpow]; ring
    rw [hsum]
    unfold roundedSig
    split
    · exact Or.inr ⟨rfl, by omega⟩
    · exact Or.inl ⟨rfl, by omega⟩
  · rw [Nat.add_assoc ((dropBits k m - k) * 2 ^ 52), v0, v1, roundMag_eq]
    have hsum : (m / 2 ^ dropBits k m * 2 ^ (dropBits k m - k) +
        (m / 2 ^ dropBits k m + 1) * 2 ^ (dropBits k m - k)) * 2 ^ k =
        2 * (2 ^ dropBits k m * (m / 2 ^ dropBits k m)) + 2 ^ dropBits k m := by
      rw [← Nat.add_mul, Nat.mul_assoc, hpow]; ring
    rw [hsum]
    intro htie
    have heven : roundedSig k m % 2 = 0 := by
      unfold roundedSig
      split <;> omega
    have hpair : (dropBits k m - k) * 2 ^ 52 = 2 * ((dropBits k m - k) * 2 ^ 51) := by ring
    rcases min_choice ((dropBits k m - k) * 2 ^ 52 + roundedSig k m) infPattern with h | h
    · rw [h, hpair, Nat.mul_add_mod, heven]
    · rw [h]; rfl

/-- A magnitude of at most 53 significant bits, in range, is the value of a finite pattern. -/
theorem representable_of_sig {q t : Nat} (hq : q < 2 ^ 53) (ht : t ≤ 2045) : ∃ p, p < infPattern ∧ magOf p = q * 2 ^ t := by
  induction t generalizing q with
  | zero => exact ⟨q, by unfold infPattern; omega, by simpa using magOf_small hq⟩
  | succ t ih =>
    rcases Nat.lt_or_ge q (2 ^ 52) with h | h
    · obtain ⟨p, hp, hv⟩ := ih (q := 2 * q) (by omega) (by omega)
      exact ⟨p, hp, by rw [hv, Nat.pow_succ]; ring⟩
    · exact ⟨(t + 1) * 2 ^ 52 + q, by unfold infPattern; omega, magOf_sum hq.le (Or.inr h)⟩

/-- A pattern's value as significand and exponent. -/
theorem magOf_sig (p : Nat) : ∃ q t, q < 2 ^ 53 ∧ magOf p = q * 2 ^ t ∧ t = p / 2 ^ 52 - 1 := by
  unfold magOf
  split
  · exact ⟨p, 0, by omega, by simp, by omega⟩
  · exact ⟨2 ^ 52 + p % 2 ^ 52, p / 2 ^ 52 - 1, by omega, rfl, rfl⟩

/-- Sterbenz's lemma, on magnitudes: the difference of values within a factor of two is a value. -/
theorem sub_representable {p p' : Nat} (hp : p ≤ p') (hp' : p' < infPattern) (h : magOf p' ≤ 2 * magOf p) :
    ∃ r, r < infPattern ∧ magOf r = magOf p' - magOf p := by
  obtain ⟨q, t, hq, hv, ht⟩ := magOf_sig p
  obtain ⟨q', t', hq', hv', ht'⟩ := magOf_sig p'
  have htt : t ≤ t' := by
    have : p / 2 ^ 52 ≤ p' / 2 ^ 52 := Nat.div_le_div_right hp
    omega
  have hmul : magOf p' = q' * 2 ^ (t' - t) * 2 ^ t := by
    rw [hv', Nat.mul_assoc, ← Nat.pow_add, Nat.sub_add_cancel htt]
  have hsub : magOf p' - magOf p = (q' * 2 ^ (t' - t) - q) * 2 ^ t := by
    rw [hmul, hv, ← Nat.sub_mul]
  have hlt : q' * 2 ^ (t' - t) - q < 2 ^ 53 := by
    have : q' * 2 ^ (t' - t) ≤ 2 * q := by
      rw [hmul, hv, ← Nat.mul_assoc] at h
      exact Nat.le_of_mul_le_mul_right h (by positivity)
    omega
  rw [hsub]
  exact representable_of_sig hlt (by unfold infPattern at hp'; omega)

/-! ### The operations on finite values -/

theorem units_withSign {n : Bool} {m : Nat} (h : m < 2 ^ 63) :
    units (withSign n m) = if n then -(magOf m : Int) else (magOf m : Int) := by
  rw [units, sign_withSign h, magUnits_withSign h]

theorem isFinite_withSign {n : Bool} {m : Nat} (h : m < infPattern) : isFinite (withSign n m) = true := by
  rw [isFinite_iff, toNat_withSign_mod (lt_trans h infPattern_lt)]
  exact h

theorem natAbs_units (x : F64) : (units x).natAbs = magUnits x := by
  unfold units; split <;> simp

theorem add_finite {x y : F64} (hx : isFinite x = true) (hy : isFinite y = true) : add x y = addFinite x y := by
  simp [add, not_nan_inf_of_finite hx, not_nan_inf_of_finite hy]

theorem mul_finite {x y : F64} (hx : isFinite x = true) (hy : isFinite y = true) : mul x y = mulFinite x y := by
  simp [mul, not_nan_inf_of_finite hx, not_nan_inf_of_finite hy]

theorem toNat_neg (x : F64) : (neg x).toNat = if sign x then x.toNat - 2 ^ 63 else x.toNat + 2 ^ 63 := by
  have hx := x.isLt
  have hneg : (neg x).toNat = x.toNat ^^^ 2 ^ 63 := by simp [neg]
  have hmod : (neg x).toNat % 2 ^ 63 = x.toNat % 2 ^ 63 := by
    rw [hneg, Nat.xor_mod_two_pow]; simp
  have hdiv : (neg x).toNat / 2 ^ 63 = x.toNat / 2 ^ 63 ^^^ 1 := by
    rw [hneg, Nat.xor_div_two_pow]; simp
  rw [sign_eq]
  simp only [decide_eq_true_eq]
  split
  · have h1 : x.toNat / 2 ^ 63 = 1 := by omega
    rw [h1] at hdiv
    simp only [Nat.xor_self] at hdiv
    omega
  · have h0 : x.toNat / 2 ^ 63 = 0 := by omega
    rw [h0] at hdiv
    simp only [Nat.zero_xor] at hdiv
    omega

@[simp] theorem sign_neg (x : F64) : sign (neg x) = !sign x := by
  have hx := x.isLt
  have h : 2 ^ 63 ≤ (neg x).toNat ↔ ¬ 2 ^ 63 ≤ x.toNat := by
    rw [toNat_neg, sign_eq]
    simp only [decide_eq_true_eq]
    split <;> omega
  rw [sign_eq, sign_eq, ← decide_not]
  exact decide_eq_decide.mpr h

@[simp] theorem magUnits_neg (x : F64) : magUnits (neg x) = magUnits x := by
  have hx := x.isLt
  rw [magUnits_eq, magUnits_eq, toNat_neg, sign_eq]
  simp only [decide_eq_true_eq]
  congr 1
  split <;> omega

@[simp] theorem units_neg (x : F64) : units (neg x) = -units x := by
  unfold units
  rw [sign_neg, magUnits_neg]
  cases sign x <;> simp

@[simp] theorem isFinite_neg (x : F64) : isFinite (neg x) = isFinite x := by
  have hx := x.isLt
  have h : (neg x).toNat % 2 ^ 63 = x.toNat % 2 ^ 63 := by
    rw [toNat_neg, sign_eq]
    simp only [decide_eq_true_eq]
    split <;> omega
  rw [Bool.eq_iff_iff, isFinite_iff, isFinite_iff, h]

/-- Integers of magnitude up to 2^53 convert exactly (R14, R85). -/
theorem ofInt_exact {n : Int} (h : n.natAbs ≤ 2 ^ 53) :
    isFinite (ofInt n) = true ∧ units (ofInt n) = n * 2 ^ 1074 ∧ sign (ofInt n) = decide (n < 0) := by
  obtain ⟨p, hp, hv⟩ : ∃ p, p < infPattern ∧ magOf p = n.natAbs * 2 ^ 1074 := by
    rcases Nat.lt_or_eq_of_le h with h | h
    · exact representable_of_sig h (by norm_num)
    · have shift : ∀ t : Nat, 2 ^ 52 * 2 ^ (t + 1) = 2 ^ 53 * 2 ^ t := fun t => by ring
      obtain ⟨p, hp, hv⟩ := representable_of_sig (q := 2 ^ 52) (t := 1074 + 1) (by norm_num) (by norm_num)
      exact ⟨p, hp, hv.trans ((shift 1074).trans (congrArg (· * 2 ^ 1074) h.symm))⟩
  have hr : roundMag 0 (n.natAbs * 2 ^ 1074) = p := by
    have := roundMag_exact 0 hp.le
    rwa [Nat.pow_zero, Nat.mul_one, hv] at this
  have hp' := lt_trans hp infPattern_lt
  unfold ofInt
  rw [hr]
  refine ⟨isFinite_withSign hp, ?_, sign_withSign hp'⟩
  rw [units_withSign hp', hv, Int.natCast_mul, Int.natCast_pow, Nat.cast_ofNat]
  rcases Int.lt_or_le n 0 with hn | hn
  · rw [decide_eq_true hn, if_pos rfl, Int.ofNat_natAbs_of_nonpos hn.le, Int.neg_mul, Int.neg_neg]
  · rw [decide_eq_false (not_lt.mpr hn), if_neg (by decide), Int.natAbs_of_nonneg hn]

end Sys2Proof.Machine.Binary64
end

