-- ==== Sys2Proof/Laws/DecayFilter.lean ====
section
/-! SUPPORT. The decay filter on the values that a run holds: its operands by their patterns, and its result as three
roundings of exact integer quantities. -/

namespace Sys2Proof.Machine

open Binary64

/-- The pattern of 32768.0 (R85). -/
abbrev peakMaxPattern : Nat := 0x40E0000000000000

/-- In range means: positive sign, and a pattern up to that of 32768.0. -/
theorem decayInRange_iff (d : F64) : decayInRange d = true ↔ d.toNat ≤ peakMaxPattern := by
  have hd := d.isLt
  have hne : (d != 0x8000000000000000#64) = true ↔ d.toNat ≠ 2 ^ 63 := by
    rw [bne_iff_ne, ne_eq, ← BitVec.toNat_inj]; rfl
  have hfin : isFinite d = true ↔ d.toNat % 2 ^ 63 < 2047 * 2 ^ 52 := isFinite_iff d
  have hkey : orderKey d = if 2 ^ 63 ≤ d.toNat then -((d.toNat % 2 ^ 63 : Nat) : Int) else ((d.toNat % 2 ^ 63 : Nat) : Int) := by
    unfold orderKey; rw [sign_eq]; simp only [decide_eq_true_eq]
  have k0 : orderKey 0 = 0 := by decide +kernel
  have k1 : orderKey 0x40E0000000000000#64 = (peakMaxPattern : Int) := by decide +kernel
  have n0 : isNaN 0 = false := by decide +kernel
  have n1 : isNaN 0x40E0000000000000#64 = false := by decide +kernel
  unfold decayInRange le
  rw [k0, k1, n0, n1]
  by_cases hf : isFinite d = true
  · have hn := (not_nan_inf_of_finite hf).1
    simp only [hf, hn, Bool.and_eq_true, hne, decide_eq_true_eq, Bool.not_false, true_and, hkey]
    have := hfin.mp hf
    unfold peakMaxPattern
    split <;> omega
  · have : ¬ d.toNat ≤ peakMaxPattern := by
      rw [hfin] at hf; intro h; unfold peakMaxPattern at h; omega
    simp [hf, this]

/-- A legal ALPHA is positive, finite, and at most one half (R9). -/
theorem checkAlpha_nil_iff (alpha : F64) : checkAlpha alpha = [] ↔ 1 ≤ alpha.toNat ∧ alpha.toNat ≤ 0x3FE0000000000000 := by
  have ha := alpha.isLt
  have hkey : orderKey alpha =
      if 2 ^ 63 ≤ alpha.toNat then -((alpha.toNat % 2 ^ 63 : Nat) : Int) else ((alpha.toNat % 2 ^ 63 : Nat) : Int) := by
    unfold orderKey; rw [sign_eq]; simp only [decide_eq_true_eq]
  have k0 : orderKey 0 = 0 := by decide +kernel
  have k1 : orderKey 0x3FE0000000000000#64 = 0x3FE0000000000000 := by decide +kernel
  have n0 : isNaN 0 = false := by decide +kernel
  have n1 : isNaN 0x3FE0000000000000#64 = false := by decide +kernel
  unfold checkAlpha lt le
  rw [k0, k1, n0, n1]
  by_cases hn : isNaN alpha = true
  · have : ¬ alpha.toNat ≤ 0x3FE0000000000000 := by
      unfold isNaN at hn; rw [expField_eq] at hn
      simp only [Bool.and_eq_true, beq_iff_eq] at hn
      omega
    simp [hn, this]
  · simp only [Bool.not_eq_true] at hn
    rw [hn, hkey]
    by_cases h : 2 ^ 63 ≤ alpha.toNat
    · rw [if_pos h, if_neg]
      · simp only [reduceCtorEq, false_iff]; omega
      · simp only [Bool.not_false, Bool.true_and, Bool.and_eq_true, decide_eq_true_eq]; omega
    · rw [if_neg h]
      have hm : alpha.toNat % 2 ^ 63 = alpha.toNat := Nat.mod_eq_of_lt (by omega)
      rw [hm]
      split
      · rename_i hc
        simp only [Bool.not_false, Bool.true_and, Bool.and_eq_true, decide_eq_true_eq] at hc
        simp only [true_iff]; omega
      · rename_i hc
        simp only [Bool.not_false, Bool.true_and, Bool.and_eq_true, decide_eq_true_eq] at hc
        simp only [reduceCtorEq, false_iff]; omega

/-- The instant peak as a binary64 value: its pattern, and its value in units of 2^-1074 (R85). -/
theorem peakToF64_spec (P : U16) :
    ∃ p, p < infPattern ∧ peakToF64 P = withSign false p ∧ magOf p = P.toNat * 2 ^ 1074 := by
  have hP := P.isLt
  obtain ⟨p, hp, hv⟩ := representable_of_sig (q := P.toNat) (t := 1074) (by omega) (by norm_num)
  refine ⟨p, hp, ?_, hv⟩
  have hr := roundMag_exact 0 hp.le
  rw [Nat.pow_zero, Nat.mul_one, hv] at hr
  unfold peakToF64 ofInt
  rw [Int.natAbs_natCast, hr, decide_eq_false (by omega)]

/-- An exact sum with a nonnegative result and an operand that is not -0 is the rounding of its magnitude. -/
theorem addFinite_nonneg {x y : F64} {m : Nat} (h : units x + units y = (m : Int)) (hs : sign x = false ∨ sign y = false) :
    addFinite x y = withSign false (roundMag 0 m) := by
  unfold addFinite
  simp only [h]
  rcases Nat.eq_zero_or_pos m with rfl | hm
  · have : (sign x && sign y) = false := by rcases hs with h | h <;> simp [h]
    rw [if_pos (by simp), this]
    rfl
  · rw [if_neg (by omega), decide_eq_false (by omega), Int.natAbs_natCast]

/-- An exact sum with a negative result is the rounding of its magnitude, negated. -/
theorem addFinite_neg {x y : F64} {m : Nat} (hm : 0 < m) (h : units x + units y = -(m : Int)) :
    addFinite x y = withSign true (roundMag 0 m) := by
  unfold addFinite
  simp only [h]
  rw [if_neg (by omega), decide_eq_true (by omega), Int.natAbs_neg, Int.natAbs_natCast]

/-- A finite positive value by its pattern. -/
theorem pos_pattern {x : F64} {b : Nat} (h : x.toNat ≤ b) (hb : b < infPattern) :
    isFinite x = true ∧ sign x = false ∧ magUnits x = magOf x.toNat ∧ units x = (magOf x.toNat : Int) ∧
      x = withSign false x.toNat := by
  have hx : x.toNat < 2 ^ 63 := lt_trans (lt_of_le_of_lt h hb) infPattern_lt
  have hs : sign x = false := by rw [sign_eq]; exact decide_eq_false (by omega)
  have hm : x.toNat % 2 ^ 63 = x.toNat := Nat.mod_eq_of_lt hx
  have hw := withSign_sign x
  rw [hs, hm] at hw
  have hu : magUnits x = magOf x.toNat := by rw [magUnits_eq, hm]
  refine ⟨(isFinite_iff x).mpr (by rw [hm]; omega), hs, hu, ?_, hw.symm⟩
  unfold units; rw [hs, hu]; rfl

/-- The difference `x`, the product `y` and the sum of `DecayUpdate` (R86) where the decayed peak is at most the instant peak:
three roundings of exact quantities. -/
theorem decayUpdate_rise {alpha d : F64} {P : U16} {p : Nat} (ha : alpha.toNat ≤ 0x3FE0000000000000)
    (hd : d.toNat ≤ peakMaxPattern) (hpf : p < infPattern) (hp : peakToF64 P = withSign false p)
    (hle : magOf d.toNat ≤ magOf p) :
    decayUpdate alpha d P = withSign false (roundMag 0 (magOf d.toNat +
      magOf (roundMag 1074 (magOf alpha.toNat * magOf (roundMag 0 (magOf p - magOf d.toNat)))))) := by
  obtain ⟨df, ds, dm, du, -⟩ := pos_pattern hd (by unfold infPattern; norm_num)
  obtain ⟨af, as, am, au, -⟩ := pos_pattern ha (by unfold infPattern; norm_num)
  have hp63 := lt_trans hpf infPattern_lt
  have hx : sub (peakToF64 P) d = withSign false (roundMag 0 (magOf p - magOf d.toNat)) := by
    rw [hp, sub, add_finite (isFinite_withSign hpf) (by rw [isFinite_neg]; exact df)]
    refine addFinite_nonneg ?_ (Or.inl (sign_withSign hp63))
    rw [units_withSign hp63, units_neg, du]
    simp only [Bool.false_eq_true, if_false]
    omega
  have hxle : roundMag 0 (magOf p - magOf d.toNat) ≤ p :=
    roundMag_le hpf.le (by rw [Nat.pow_zero, Nat.mul_one]; omega)
  have hxf : roundMag 0 (magOf p - magOf d.toNat) < infPattern := lt_of_le_of_lt hxle hpf
  generalize roundMag 0 (magOf p - magOf d.toNat) = X at hx hxle hxf
  have hx63 := lt_trans hxf infPattern_lt
  have hy : mul alpha (withSign false X) = withSign false (roundMag 1074 (magOf alpha.toNat * magOf X)) := by
    rw [mul_finite af (isFinite_withSign hxf), mulFinite, as, sign_withSign hx63, am, magUnits_withSign hx63]
    rfl
  have hyle : roundMag 1074 (magOf alpha.toNat * magOf X) ≤ X := by
    refine roundMag_le hxf.le ?_
    rw [Nat.mul_comm]
    refine Nat.mul_le_mul_left _ ?_
    have h1 : magOf alpha.toNat ≤ magOf 0x3FE0000000000000 := magOf_le_iff.mpr ha
    have h2 : magOf 0x3FE0000000000000 ≤ 2 ^ 1074 := by decide +kernel
    exact le_trans h1 h2
  have hyf := lt_of_le_of_lt hyle hxf
  have hy63 := lt_trans hyf infPattern_lt
  unfold decayUpdate
  simp only
  rw [hx, hy, add_finite df (isFinite_withSign hyf)]
  refine addFinite_nonneg ?_ (Or.inl ds)
  rw [du, units_withSign hy63]
  simp

/-- The same where the decayed peak is above the instant peak, and the product does not exceed it. -/
theorem decayUpdate_fall {alpha d : F64} {P : U16} {p : Nat} (ha : alpha.toNat ≤ 0x3FE0000000000000)
    (hd : d.toNat ≤ peakMaxPattern) (hpf : p < infPattern) (hp : peakToF64 P = withSign false p)
    (hlt : magOf p < magOf d.toNat)
    (hyd : roundMag 1074 (magOf alpha.toNat * magOf (roundMag 0 (magOf d.toNat - magOf p))) ≤ d.toNat) :
    decayUpdate alpha d P = withSign false (roundMag 0 (magOf d.toNat -
      magOf (roundMag 1074 (magOf alpha.toNat * magOf (roundMag 0 (magOf d.toNat - magOf p)))))) := by
  have hdinf : d.toNat < infPattern := by unfold infPattern; unfold peakMaxPattern at hd; omega
  obtain ⟨df, ds, dm, du, -⟩ := pos_pattern hd (by unfold infPattern; norm_num)
  obtain ⟨af, as, am, au, -⟩ := pos_pattern ha (by unfold infPattern; norm_num)
  have hp63 := lt_trans hpf infPattern_lt
  have hx : sub (peakToF64 P) d = withSign true (roundMag 0 (magOf d.toNat - magOf p)) := by
    rw [hp, sub, add_finite (isFinite_withSign hpf) (by rw [isFinite_neg]; exact df)]
    refine addFinite_neg (by omega) ?_
    rw [units_withSign hp63, units_neg, du]
    simp only [Bool.false_eq_true, if_false]
    omega
  have hxle : roundMag 0 (magOf d.toNat - magOf p) ≤ d.toNat :=
    roundMag_le hdinf.le (by rw [Nat.pow_zero, Nat.mul_one]; omega)
  have hxf : roundMag 0 (magOf d.toNat - magOf p) < infPattern := lt_of_le_of_lt hxle hdinf
  generalize roundMag 0 (magOf d.toNat - magOf p) = X at hx hxle hxf hyd
  have hx63 := lt_trans hxf infPattern_lt
  have hy : mul alpha (withSign true X) = withSign true (roundMag 1074 (magOf alpha.toNat * magOf X)) := by
    rw [mul_finite af (isFinite_withSign hxf), mulFinite, as, sign_withSign hx63, am, magUnits_withSign hx63]
    rfl
  have hyf := lt_of_le_of_lt hyd hdinf
  have hy63 := lt_trans hyf infPattern_lt
  unfold decayUpdate
  simp only
  rw [hx, hy, add_finite df (isFinite_withSign hyf)]
  refine addFinite_nonneg ?_ (Or.inl ds)
  have := magOf_le_iff.mpr hyd
  rw [du, units_withSign hy63]
  simp only [if_true]
  omega

end Sys2Proof.Machine
end

