-- ==== Sys2Proof/Laws/Configuration.lean ====
section
/-! SUPPORT. What a legal configuration means. -/

namespace Sys2Proof.Machine

open Binary64

theorem checkWindow_nil_iff (n : Int) : checkWindow n = [] ↔ 0 < n ∧ n % 4 = 0 := by
  unfold checkWindow
  split_ifs <;> simp <;> omega

/-- A legal rate is positive and finite (R8). -/
theorem checkRate_nil_iff (r : F64) : checkRate r = [] ↔ 1 ≤ r.toNat ∧ r.toNat < 0x7FF0000000000000 := by
  have hr := r.isLt
  have hkey : orderKey r = if 2 ^ 63 ≤ r.toNat then -((r.toNat % 2 ^ 63 : Nat) : Int) else ((r.toNat % 2 ^ 63 : Nat) : Int) := by
    unfold orderKey; rw [sign_eq]; simp only [decide_eq_true_eq]
  have k0 : orderKey 0 = 0 := by decide +kernel
  have n0 : isNaN 0 = false := by decide +kernel
  have hf : isFinite r = true ↔ r.toNat % 2 ^ 63 < 0x7FF0000000000000 := isFinite_iff r
  unfold checkRate lt
  rw [k0, n0]
  by_cases h : isFinite r = true
  · have hlt := hf.mp h
    rw [h, (not_nan_inf_of_finite h).1, hkey]
    by_cases hs : 2 ^ 63 ≤ r.toNat
    · rw [if_pos hs, if_neg]
      · simp only [reduceCtorEq, false_iff]; omega
      · simp only [Bool.not_false, Bool.true_and, decide_eq_true_eq]; omega
    · rw [if_neg hs]
      by_cases h1 : 1 ≤ r.toNat
      · rw [if_pos]
        · simp only [true_iff]; omega
        · simp only [Bool.not_false, Bool.true_and, decide_eq_true_eq]; omega
      · rw [if_neg]
        · simp only [reduceCtorEq, false_iff]; omega
        · simp only [Bool.not_false, Bool.true_and, decide_eq_true_eq]; omega
  · have hn : ¬ r.toNat < 0x7FF0000000000000 := by rw [hf] at h; omega
    simp [h, hn]

/-- The configuration is legal exactly where its three parts are (R100). -/
theorem configCheck_nil_iff (p : Params) :
    configCheck p = [] ↔ checkWindow p.windowBytes = [] ∧ checkRate p.sampleRateHz = [] ∧ checkAlpha p.alpha = [] := by
  simp [configCheck]

/-- What a legal configuration gives every proof about a run. -/
theorem State.Legal.spec {s : State} (h : s.Legal) :
    0 < s.params.windowBytes ∧ s.params.windowBytes % 4 = 0 ∧ checkAlpha s.params.alpha = [] := by
  obtain ⟨hw, -, ha⟩ := (configCheck_nil_iff s.params).mp h
  exact ⟨((checkWindow_nil_iff _).mp hw).1, ((checkWindow_nil_iff _).mp hw).2, ha⟩

end Sys2Proof.Machine
end

