-- ==== Sys2Proof/Laws/Operands.lean ====
section
/-! SUPPORT. What the operand functions give, in numbers: samples, magnitudes, maxima, folded groups. -/

namespace Sys2Proof.Machine

/-- Every decoded sample is a signed 16-bit value (R75). -/
theorem decode16_range (lo hi : Byte) : -32768 ≤ decode16 lo hi ∧ decode16 lo hi ≤ 32767 := by
  unfold decode16
  have h1 := BitVec.toInt_lt (x := hi ++ lo)
  have h2 := BitVec.le_toInt (x := hi ++ lo)
  omega

/-- The magnitude of a sample fits u16 (R77). -/
theorem abs16_toNat {x : Int} (h1 : -32768 ≤ x) (h2 : x ≤ 32767) : (abs16 x).toNat = x.natAbs := by
  unfold abs16
  rw [BitVec.toNat_ofNat]
  omega

@[simp] theorem maxU16_toNat (a b : U16) : (maxU16 a b).toNat = max a.toNat b.toNat := by
  unfold maxU16
  split <;> omega

/-- Folding a group whose samples came from bytes keeps the peaks in [0, 32768] (R81). -/
theorem foldGroup_le {peaks : Stereo U16} (h : peaks.left.toNat ≤ 32768 ∧ peaks.right.toNat ≤ 32768) (b0 b1 b2 b3 : Byte) :
    (foldGroup peaks (decodeGroup b0 b1 b2 b3)).left.toNat ≤ 32768 ∧
      (foldGroup peaks (decodeGroup b0 b1 b2 b3)).right.toNat ≤ 32768 := by
  have h1 := decode16_range b0 b1
  have h2 := decode16_range b2 b3
  simp only [foldGroup, decodeGroup, maxU16_toNat, abs16_toNat h1.1 h1.2, abs16_toNat h2.1 h2.2]
  omega

/-- The groups of a list that begins with a whole group. -/
@[simp] theorem groupsOf_cons (b0 b1 b2 b3 : Byte) (rest : List Byte) :
    groupsOf (b0 :: b1 :: b2 :: b3 :: rest) = decodeGroup b0 b1 b2 b3 :: groupsOf rest := rfl

/-- Fewer than four bytes hold no group (R44). -/
theorem groupsOf_short {window : List Byte} (h : window.length < 4) : groupsOf window = [] := by
  match window, h with
  | [], _ => rfl
  | [_], _ => rfl
  | [_, _], _ => rfl
  | [_, _, _], _ => rfl

end Sys2Proof.Machine
end

