-- ==== Sys2Proof/Laws/PerInstr.lean ====
section
/-! SUPPORT. Facts of every event as syntax: its word lies in its own row of the encoding table, and it is well formed exactly
where the KIND of its word is not the reserved one (R53, R56). -/

namespace Sys2Proof.Laws.TableRow

/-- The word of the event is selected by the row of its own mnemonic and by no other, and the event may be offered exactly
where its KIND is not 0b11. -/
def Statement (i : Instr) : Prop :=
  (∀ r ∈ encodingTable, r.selects (encode i) = (r.mnemonic == i.mnemonic)) ∧
    (i.wellFormed = true ↔ kindOf (encode i) ≠ 0b11#2)

theorem byte (v : Byte) : Statement (.byte v) := by
  have h : ∀ v : Byte, (∀ r ∈ encodingTable, r.selects (encode (.byte v)) = (r.mnemonic == "BYTE")) ∧
      kindOf (encode (.byte v)) = 0b00#2 := by decide +kernel
  exact ⟨(h v).1, by simp [(h v).2, Instr.wellFormed]⟩

theorem eos : Statement .eos := by
  unfold Statement; decide +kernel

theorem fault : Statement .fault := by
  unfold Statement; decide +kernel

theorem reserved (data : Byte) : Statement (.reserved data) := by
  have h : ∀ v : Byte, (∀ r ∈ encodingTable, r.selects (encode (.reserved v)) = (r.mnemonic == "RESERVED")) ∧
      kindOf (encode (.reserved v)) = 0b11#2 := by decide +kernel
  exact ⟨(h data).1, by simp [(h data).2, Instr.wellFormed]⟩

end Sys2Proof.Laws.TableRow
end

