-- ==== Sys2Proof/Laws/State.lean ====
section
/-! SUPPORT. One lemma per named operation and field of State: what the field is afterwards. -/

namespace Sys2Proof.Machine

/-! ### writeHold -/

@[simp] theorem State.writeHold_params (s : State) (k : Nat) (v : Byte) : (s.writeHold k v).params = s.params := rfl
@[simp] theorem State.writeHold_decayed (s : State) (k : Nat) (v : Byte) :
    (s.writeHold k v).decayed = s.decayed := rfl
@[simp] theorem State.writeHold_inst (s : State) (k : Nat) (v : Byte) : (s.writeHold k v).inst = s.inst := rfl
@[simp] theorem State.writeHold_byteCount (s : State) (k : Nat) (v : Byte) :
    (s.writeHold k v).byteCount = s.byteCount := rfl
@[simp] theorem State.writeHold_hold (s : State) (k : Nat) (v : Byte) :
    (s.writeHold k v).hold = s.hold.write k v := rfl
@[simp] theorem State.writeHold_status (s : State) (k : Nat) (v : Byte) : (s.writeHold k v).status = s.status := rfl
@[simp] theorem State.writeHold_outPending (s : State) (k : Nat) (v : Byte) :
    (s.writeHold k v).outPending = s.outPending := rfl
@[simp] theorem State.writeHold_outTuple (s : State) (k : Nat) (v : Byte) :
    (s.writeHold k v).outTuple = s.outTuple := rfl
@[simp] theorem State.writeHold_trace (s : State) (k : Nat) (v : Byte) : (s.writeHold k v).trace = s.trace := rfl
@[simp] theorem State.writeHold_refusal (s : State) (k : Nat) (v : Byte) :
    (s.writeHold k v).refusal = s.refusal := rfl
@[simp] theorem State.writeHold_input (s : State) (k : Nat) (v : Byte) : (s.writeHold k v).input = s.input := rfl

/-! ### accumulate -/

@[simp] theorem State.accumulate_params (s : State) (c : Channel) (x : Int) :
    (s.accumulate c x).params = s.params := rfl
@[simp] theorem State.accumulate_decayed (s : State) (c : Channel) (x : Int) :
    (s.accumulate c x).decayed = s.decayed := rfl
@[simp] theorem State.accumulate_inst (s : State) (c : Channel) (x : Int) :
    (s.accumulate c x).inst = s.inst.set c (maxU16 (s.inst.get c) (abs16 x)) := rfl
@[simp] theorem State.accumulate_byteCount (s : State) (c : Channel) (x : Int) :
    (s.accumulate c x).byteCount = s.byteCount := rfl
@[simp] theorem State.accumulate_hold (s : State) (c : Channel) (x : Int) : (s.accumulate c x).hold = s.hold := rfl
@[simp] theorem State.accumulate_status (s : State) (c : Channel) (x : Int) :
    (s.accumulate c x).status = s.status := rfl
@[simp] theorem State.accumulate_outPending (s : State) (c : Channel) (x : Int) :
    (s.accumulate c x).outPending = s.outPending := rfl
@[simp] theorem State.accumulate_outTuple (s : State) (c : Channel) (x : Int) :
    (s.accumulate c x).outTuple = s.outTuple := rfl
@[simp] theorem State.accumulate_trace (s : State) (c : Channel) (x : Int) : (s.accumulate c x).trace = s.trace := rfl
@[simp] theorem State.accumulate_refusal (s : State) (c : Channel) (x : Int) :
    (s.accumulate c x).refusal = s.refusal := rfl
@[simp] theorem State.accumulate_input (s : State) (c : Channel) (x : Int) : (s.accumulate c x).input = s.input := rfl

/-! ### groupDecodeAccumulate -/

@[simp] theorem State.groupDecodeAccumulate_params (s : State) (b0 b1 b2 b3 : Byte) :
    (s.groupDecodeAccumulate b0 b1 b2 b3).params = s.params := rfl
@[simp] theorem State.groupDecodeAccumulate_decayed (s : State) (b0 b1 b2 b3 : Byte) :
    (s.groupDecodeAccumulate b0 b1 b2 b3).decayed = s.decayed := rfl
@[simp] theorem State.groupDecodeAccumulate_inst (s : State) (b0 b1 b2 b3 : Byte) :
    (s.groupDecodeAccumulate b0 b1 b2 b3).inst = foldGroup s.inst (decodeGroup b0 b1 b2 b3) := rfl
@[simp] theorem State.groupDecodeAccumulate_byteCount (s : State) (b0 b1 b2 b3 : Byte) :
    (s.groupDecodeAccumulate b0 b1 b2 b3).byteCount = s.byteCount := rfl
@[simp] theorem State.groupDecodeAccumulate_hold (s : State) (b0 b1 b2 b3 : Byte) :
    (s.groupDecodeAccumulate b0 b1 b2 b3).hold = s.hold := rfl
@[simp] theorem State.groupDecodeAccumulate_status (s : State) (b0 b1 b2 b3 : Byte) :
    (s.groupDecodeAccumulate b0 b1 b2 b3).status = s.status := rfl
@[simp] theorem State.groupDecodeAccumulate_outPending (s : State) (b0 b1 b2 b3 : Byte) :
    (s.groupDecodeAccumulate b0 b1 b2 b3).outPending = s.outPending := rfl
@[simp] theorem State.groupDecodeAccumulate_outTuple (s : State) (b0 b1 b2 b3 : Byte) :
    (s.groupDecodeAccumulate b0 b1 b2 b3).outTuple = s.outTuple := rfl
@[simp] theorem State.groupDecodeAccumulate_trace (s : State) (b0 b1 b2 b3 : Byte) :
    (s.groupDecodeAccumulate b0 b1 b2 b3).trace = s.trace := rfl
@[simp] theorem State.groupDecodeAccumulate_refusal (s : State) (b0 b1 b2 b3 : Byte) :
    (s.groupDecodeAccumulate b0 b1 b2 b3).refusal = s.refusal := rfl
@[simp] theorem State.groupDecodeAccumulate_input (s : State) (b0 b1 b2 b3 : Byte) :
    (s.groupDecodeAccumulate b0 b1 b2 b3).input = s.input := rfl

/-! ### countByte -/

@[simp] theorem State.countByte_params (s : State) : (s.countByte).params = s.params := rfl
@[simp] theorem State.countByte_decayed (s : State) : (s.countByte).decayed = s.decayed := rfl
@[simp] theorem State.countByte_inst (s : State) : (s.countByte).inst = s.inst := rfl
@[simp] theorem State.countByte_byteCount (s : State) : (s.countByte).byteCount = s.byteCount + 1 := rfl
@[simp] theorem State.countByte_hold (s : State) : (s.countByte).hold = s.hold := rfl
@[simp] theorem State.countByte_status (s : State) : (s.countByte).status = s.status := rfl
@[simp] theorem State.countByte_outPending (s : State) : (s.countByte).outPending = s.outPending := rfl
@[simp] theorem State.countByte_outTuple (s : State) : (s.countByte).outTuple = s.outTuple := rfl
@[simp] theorem State.countByte_trace (s : State) : (s.countByte).trace = s.trace := rfl
@[simp] theorem State.countByte_refusal (s : State) : (s.countByte).refusal = s.refusal := rfl
@[simp] theorem State.countByte_input (s : State) : (s.countByte).input = s.input := rfl

/-! ### updateDecay -/

@[simp] theorem State.updateDecay_params (s : State) : (s.updateDecay).params = s.params := rfl
@[simp] theorem State.updateDecay_decayed (s : State) :
    (s.updateDecay).decayed = { left := decayUpdate s.params.alpha s.decayed.left s.inst.left, right := decayUpdate s.params.alpha s.decayed.right s.inst.right } := rfl
@[simp] theorem State.updateDecay_inst (s : State) : (s.updateDecay).inst = s.inst := rfl
@[simp] theorem State.updateDecay_byteCount (s : State) : (s.updateDecay).byteCount = s.byteCount := rfl
@[simp] theorem State.updateDecay_hold (s : State) : (s.updateDecay).hold = s.hold := rfl
@[simp] theorem State.updateDecay_status (s : State) : (s.updateDecay).status = s.status := rfl
@[simp] theorem State.updateDecay_outPending (s : State) : (s.updateDecay).outPending = s.outPending := rfl
@[simp] theorem State.updateDecay_outTuple (s : State) : (s.updateDecay).outTuple = s.outTuple := rfl
@[simp] theorem State.updateDecay_trace (s : State) : (s.updateDecay).trace = s.trace := rfl
@[simp] theorem State.updateDecay_refusal (s : State) : (s.updateDecay).refusal = s.refusal := rfl
@[simp] theorem State.updateDecay_input (s : State) : (s.updateDecay).input = s.input := rfl

/-! ### emit -/

@[simp] theorem State.emit_params (s : State) (t : OutTuple) : (s.emit t).params = s.params := rfl
@[simp] theorem State.emit_decayed (s : State) (t : OutTuple) : (s.emit t).decayed = s.decayed := rfl
@[simp] theorem State.emit_inst (s : State) (t : OutTuple) : (s.emit t).inst = s.inst := rfl
@[simp] theorem State.emit_byteCount (s : State) (t : OutTuple) : (s.emit t).byteCount = s.byteCount := rfl
@[simp] theorem State.emit_hold (s : State) (t : OutTuple) : (s.emit t).hold = s.hold := rfl
@[simp] theorem State.emit_status (s : State) (t : OutTuple) : (s.emit t).status = s.status := rfl
@[simp] theorem State.emit_outPending (s : State) (t : OutTuple) : (s.emit t).outPending = true := rfl
@[simp] theorem State.emit_outTuple (s : State) (t : OutTuple) : (s.emit t).outTuple = t := rfl
@[simp] theorem State.emit_trace (s : State) (t : OutTuple) : (s.emit t).trace = s.trace ++ [t] := rfl
@[simp] theorem State.emit_refusal (s : State) (t : OutTuple) : (s.emit t).refusal = s.refusal := rfl
@[simp] theorem State.emit_input (s : State) (t : OutTuple) : (s.emit t).input = s.input := rfl

/-! ### clearWindow -/

@[simp] theorem State.clearWindow_params (s : State) : (s.clearWindow).params = s.params := rfl
@[simp] theorem State.clearWindow_decayed (s : State) : (s.clearWindow).decayed = s.decayed := rfl
@[simp] theorem State.clearWindow_inst (s : State) : (s.clearWindow).inst = { left := 0, right := 0 } := rfl
@[simp] theorem State.clearWindow_byteCount (s : State) : (s.clearWindow).byteCount = 0 := rfl
@[simp] theorem State.clearWindow_hold (s : State) : (s.clearWindow).hold = s.hold := rfl
@[simp] theorem State.clearWindow_status (s : State) : (s.clearWindow).status = s.status := rfl
@[simp] theorem State.clearWindow_outPending (s : State) : (s.clearWindow).outPending = s.outPending := rfl
@[simp] theorem State.clearWindow_outTuple (s : State) : (s.clearWindow).outTuple = s.outTuple := rfl
@[simp] theorem State.clearWindow_trace (s : State) : (s.clearWindow).trace = s.trace := rfl
@[simp] theorem State.clearWindow_refusal (s : State) : (s.clearWindow).refusal = s.refusal := rfl
@[simp] theorem State.clearWindow_input (s : State) : (s.clearWindow).input = s.input := rfl

/-! ### commit -/

@[simp] theorem State.commit_params (s : State) : (s.commit).params = s.params := rfl
@[simp] theorem State.commit_decayed (s : State) : (s.commit).decayed = s.updateDecay.decayed := rfl
@[simp] theorem State.commit_inst (s : State) : (s.commit).inst = { left := 0, right := 0 } := rfl
@[simp] theorem State.commit_byteCount (s : State) : (s.commit).byteCount = 0 := rfl
@[simp] theorem State.commit_hold (s : State) : (s.commit).hold = s.hold := rfl
@[simp] theorem State.commit_status (s : State) : (s.commit).status = s.status := rfl
@[simp] theorem State.commit_outPending (s : State) : (s.commit).outPending = true := rfl
@[simp] theorem State.commit_outTuple (s : State) : (s.commit).outTuple = s.updateDecay.windowTuple := rfl
@[simp] theorem State.commit_trace (s : State) : (s.commit).trace = s.trace ++ [s.updateDecay.windowTuple] := rfl
@[simp] theorem State.commit_refusal (s : State) : (s.commit).refusal = s.refusal := rfl
@[simp] theorem State.commit_input (s : State) : (s.commit).input = s.input := rfl

/-! ### enterStatus -/

@[simp] theorem State.enterStatus_params (s : State) (code : BitVec 2) : (s.enterStatus code).params = s.params := rfl
@[simp] theorem State.enterStatus_decayed (s : State) (code : BitVec 2) :
    (s.enterStatus code).decayed = s.decayed := rfl
@[simp] theorem State.enterStatus_inst (s : State) (code : BitVec 2) : (s.enterStatus code).inst = s.inst := rfl
@[simp] theorem State.enterStatus_byteCount (s : State) (code : BitVec 2) :
    (s.enterStatus code).byteCount = s.byteCount := rfl
@[simp] theorem State.enterStatus_hold (s : State) (code : BitVec 2) : (s.enterStatus code).hold = s.hold := rfl
@[simp] theorem State.enterStatus_status (s : State) (code : BitVec 2) : (s.enterStatus code).status = code := rfl
@[simp] theorem State.enterStatus_outPending (s : State) (code : BitVec 2) :
    (s.enterStatus code).outPending = s.outPending := rfl
@[simp] theorem State.enterStatus_outTuple (s : State) (code : BitVec 2) :
    (s.enterStatus code).outTuple = s.outTuple := rfl
@[simp] theorem State.enterStatus_trace (s : State) (code : BitVec 2) : (s.enterStatus code).trace = s.trace := rfl
@[simp] theorem State.enterStatus_refusal (s : State) (code : BitVec 2) :
    (s.enterStatus code).refusal = s.refusal := rfl
@[simp] theorem State.enterStatus_input (s : State) (code : BitVec 2) : (s.enterStatus code).input = s.input := rfl

/-! ### acceptOutput -/

@[simp] theorem State.acceptOutput_params (s : State) : (s.acceptOutput).params = s.params := rfl
@[simp] theorem State.acceptOutput_decayed (s : State) : (s.acceptOutput).decayed = s.decayed := rfl
@[simp] theorem State.acceptOutput_inst (s : State) : (s.acceptOutput).inst = s.inst := rfl
@[simp] theorem State.acceptOutput_byteCount (s : State) : (s.acceptOutput).byteCount = s.byteCount := rfl
@[simp] theorem State.acceptOutput_hold (s : State) : (s.acceptOutput).hold = s.hold := rfl
@[simp] theorem State.acceptOutput_status (s : State) : (s.acceptOutput).status = s.status := rfl
@[simp] theorem State.acceptOutput_outPending (s : State) : (s.acceptOutput).outPending = false := rfl
@[simp] theorem State.acceptOutput_outTuple (s : State) : (s.acceptOutput).outTuple = s.outTuple := rfl
@[simp] theorem State.acceptOutput_trace (s : State) : (s.acceptOutput).trace = s.trace := rfl
@[simp] theorem State.acceptOutput_refusal (s : State) : (s.acceptOutput).refusal = s.refusal := rfl
@[simp] theorem State.acceptOutput_input (s : State) : (s.acceptOutput).input = s.input := rfl

/-! ### markRefusal -/

@[simp] theorem State.markRefusal_params (s : State) (r : RefusalCause) : (s.markRefusal r).params = s.params := rfl
@[simp] theorem State.markRefusal_decayed (s : State) (r : RefusalCause) :
    (s.markRefusal r).decayed = s.decayed := rfl
@[simp] theorem State.markRefusal_inst (s : State) (r : RefusalCause) : (s.markRefusal r).inst = s.inst := rfl
@[simp] theorem State.markRefusal_byteCount (s : State) (r : RefusalCause) :
    (s.markRefusal r).byteCount = s.byteCount := rfl
@[simp] theorem State.markRefusal_hold (s : State) (r : RefusalCause) : (s.markRefusal r).hold = s.hold := rfl
@[simp] theorem State.markRefusal_status (s : State) (r : RefusalCause) : (s.markRefusal r).status = s.status := rfl
@[simp] theorem State.markRefusal_outPending (s : State) (r : RefusalCause) :
    (s.markRefusal r).outPending = s.outPending := rfl
@[simp] theorem State.markRefusal_outTuple (s : State) (r : RefusalCause) :
    (s.markRefusal r).outTuple = s.outTuple := rfl
@[simp] theorem State.markRefusal_trace (s : State) (r : RefusalCause) : (s.markRefusal r).trace = s.trace := rfl
@[simp] theorem State.markRefusal_refusal (s : State) (r : RefusalCause) :
    (s.markRefusal r).refusal = some (s.refusal.getD r) := rfl
@[simp] theorem State.markRefusal_input (s : State) (r : RefusalCause) : (s.markRefusal r).input = s.input := rfl

/-! ### resetBlock -/

@[simp] theorem State.resetBlock_params (s : State) : (s.resetBlock).params = s.params := rfl
@[simp] theorem State.resetBlock_decayed (s : State) : (s.resetBlock).decayed = { left := 0, right := 0 } := rfl
@[simp] theorem State.resetBlock_inst (s : State) : (s.resetBlock).inst = { left := 0, right := 0 } := rfl
@[simp] theorem State.resetBlock_byteCount (s : State) : (s.resetBlock).byteCount = 0 := rfl
@[simp] theorem State.resetBlock_hold (s : State) : (s.resetBlock).hold = { b0 := 0, b1 := 0, b2 := 0 } := rfl
@[simp] theorem State.resetBlock_status (s : State) : (s.resetBlock).status = statusRunning := rfl
@[simp] theorem State.resetBlock_outPending (s : State) : (s.resetBlock).outPending = false := rfl
@[simp] theorem State.resetBlock_outTuple (s : State) : (s.resetBlock).outTuple = OutTuple.zero := rfl
@[simp] theorem State.resetBlock_trace (s : State) : (s.resetBlock).trace = [] := rfl
@[simp] theorem State.resetBlock_refusal (s : State) : (s.resetBlock).refusal = s.refusal := rfl
@[simp] theorem State.resetBlock_input (s : State) : (s.resetBlock).input = s.input := rfl

/-! ### dropInput -/

@[simp] theorem State.dropInput_params (s : State) : (s.dropInput).params = s.params := rfl
@[simp] theorem State.dropInput_decayed (s : State) : (s.dropInput).decayed = s.decayed := rfl
@[simp] theorem State.dropInput_inst (s : State) : (s.dropInput).inst = s.inst := rfl
@[simp] theorem State.dropInput_byteCount (s : State) : (s.dropInput).byteCount = s.byteCount := rfl
@[simp] theorem State.dropInput_hold (s : State) : (s.dropInput).hold = s.hold := rfl
@[simp] theorem State.dropInput_status (s : State) : (s.dropInput).status = s.status := rfl
@[simp] theorem State.dropInput_outPending (s : State) : (s.dropInput).outPending = s.outPending := rfl
@[simp] theorem State.dropInput_outTuple (s : State) : (s.dropInput).outTuple = s.outTuple := rfl
@[simp] theorem State.dropInput_trace (s : State) : (s.dropInput).trace = s.trace := rfl
@[simp] theorem State.dropInput_refusal (s : State) : (s.dropInput).refusal = s.refusal := rfl
@[simp] theorem State.dropInput_input (s : State) : (s.dropInput).input = s.input.tail := rfl

/-! ### offerNext -/

@[simp] theorem State.offerNext_params (s : State) (w : EventWord) : (s.offerNext w).params = s.params := rfl
@[simp] theorem State.offerNext_decayed (s : State) (w : EventWord) : (s.offerNext w).decayed = s.decayed := rfl
@[simp] theorem State.offerNext_inst (s : State) (w : EventWord) : (s.offerNext w).inst = s.inst := rfl
@[simp] theorem State.offerNext_byteCount (s : State) (w : EventWord) : (s.offerNext w).byteCount = s.byteCount := rfl
@[simp] theorem State.offerNext_hold (s : State) (w : EventWord) : (s.offerNext w).hold = s.hold := rfl
@[simp] theorem State.offerNext_status (s : State) (w : EventWord) : (s.offerNext w).status = s.status := rfl
@[simp] theorem State.offerNext_outPending (s : State) (w : EventWord) :
    (s.offerNext w).outPending = s.outPending := rfl
@[simp] theorem State.offerNext_outTuple (s : State) (w : EventWord) : (s.offerNext w).outTuple = s.outTuple := rfl
@[simp] theorem State.offerNext_trace (s : State) (w : EventWord) : (s.offerNext w).trace = s.trace := rfl
@[simp] theorem State.offerNext_refusal (s : State) (w : EventWord) : (s.offerNext w).refusal = s.refusal := rfl
@[simp] theorem State.offerNext_input (s : State) (w : EventWord) :
    (s.offerNext w).input = HostInput.offer w :: s.input.tail := rfl

/-! ### placeByte: `hold` or `inst`, by the group position -/

@[simp] theorem State.placeByte_params (s : State) (v : Byte) : (s.placeByte v).params = s.params := by
  unfold State.placeByte; split <;> rfl
@[simp] theorem State.placeByte_decayed (s : State) (v : Byte) : (s.placeByte v).decayed = s.decayed := by
  unfold State.placeByte; split <;> rfl
@[simp] theorem State.placeByte_byteCount (s : State) (v : Byte) : (s.placeByte v).byteCount = s.byteCount := by
  unfold State.placeByte; split <;> rfl
@[simp] theorem State.placeByte_status (s : State) (v : Byte) : (s.placeByte v).status = s.status := by
  unfold State.placeByte; split <;> rfl
@[simp] theorem State.placeByte_outPending (s : State) (v : Byte) : (s.placeByte v).outPending = s.outPending := by
  unfold State.placeByte; split <;> rfl
@[simp] theorem State.placeByte_outTuple (s : State) (v : Byte) : (s.placeByte v).outTuple = s.outTuple := by
  unfold State.placeByte; split <;> rfl
@[simp] theorem State.placeByte_trace (s : State) (v : Byte) : (s.placeByte v).trace = s.trace := by
  unfold State.placeByte; split <;> rfl
@[simp] theorem State.placeByte_refusal (s : State) (v : Byte) : (s.placeByte v).refusal = s.refusal := by
  unfold State.placeByte; split <;> rfl
@[simp] theorem State.placeByte_input (s : State) (v : Byte) : (s.placeByte v).input = s.input := by
  unfold State.placeByte; split <;> rfl
theorem State.placeByte_early (s : State) (v : Byte) (h : s.phase < 3) :
    s.placeByte v = s.writeHold s.phase v := if_pos h
theorem State.placeByte_last (s : State) (v : Byte) (h : s.phase = 3) :
    s.placeByte v = s.groupDecodeAccumulate s.hold.b0 s.hold.b1 s.hold.b2 v :=
  if_neg (by omega)

/-! ### commitIfFull: nothing, or a commit -/

@[simp] theorem State.commitIfFull_params (s : State) : s.commitIfFull.params = s.params := by
  unfold State.commitIfFull; split <;> rfl
@[simp] theorem State.commitIfFull_hold (s : State) : s.commitIfFull.hold = s.hold := by
  unfold State.commitIfFull; split <;> rfl
@[simp] theorem State.commitIfFull_status (s : State) : s.commitIfFull.status = s.status := by
  unfold State.commitIfFull; split <;> rfl
@[simp] theorem State.commitIfFull_refusal (s : State) : s.commitIfFull.refusal = s.refusal := by
  unfold State.commitIfFull; split <;> rfl
@[simp] theorem State.commitIfFull_input (s : State) : s.commitIfFull.input = s.input := by
  unfold State.commitIfFull; split <;> rfl
theorem State.commitIfFull_full (s : State) (h : (s.byteCount : Int) = s.params.windowBytes) :
    s.commitIfFull = s.commit := if_pos (by simp [State.windowFull, h])
theorem State.commitIfFull_not_full (s : State) (h : (s.byteCount : Int) ≠ s.params.windowBytes) :
    s.commitIfFull = s := if_neg (by simp [State.windowFull, h])

/-! ### The parts of a pair -/

@[simp] theorem Stereo.get_left {α : Type} (p : Stereo α) : p.get .L = p.left := rfl
@[simp] theorem Stereo.get_right {α : Type} (p : Stereo α) : p.get .R = p.right := rfl
@[simp] theorem Stereo.set_left {α : Type} (p : Stereo α) (x : α) : p.set .L x = { p with left := x } := rfl
@[simp] theorem Stereo.set_right {α : Type} (p : Stereo α) (x : α) : p.set .R x = { p with right := x } := rfl

/-! ### The state after reset -/

@[simp] theorem State.resetWith_params (p : Params) : (State.resetWith p).params = p := rfl
@[simp] theorem State.resetWith_refusal (p : Params) : (State.resetWith p).refusal = none := rfl
@[simp] theorem State.resetWith_status (p : Params) : (State.resetWith p).status = statusRunning := rfl
@[simp] theorem State.resetWith_outPending (p : Params) : (State.resetWith p).outPending = false := rfl

end Sys2Proof.Machine
end

