-- ==== Sys2Proof/Laws/Step.lean ====
section
/-! SUPPORT. What the shared operations of a step can do, said once: acceptance, fetching, each event, the step. -/

namespace Sys2Proof.Machine

/-- Everything acceptance can answer with a next state: a hold, or the effect (R64). -/
theorem acceptEvent_next {s t : State} {f : State → State} (h : acceptEvent s f = .next t) :
    s.status ≠ statusReserved ∧ ((s.evReady = false ∧ t = s) ∨ (s.evReady = true ∧ s.refusal = none ∧ t = f s)) := by
  unfold acceptEvent at h
  split at h
  · cases h
  · split at h
    · split at h
      · cases h
      · cases h; simp_all
    · cases h; simp_all

/-- `ev_ready` by its two inputs (R30). -/
theorem State.evReady_iff (s : State) :
    s.evReady = true ↔ s.status = statusRunning ∧ s.outPending = false := by
  simp [State.evReady]

/-- An accepted event runs its effect. -/
theorem acceptEvent_accepting {s : State} (h : s.Accepting) (f : State → State) : acceptEvent s f = .next (f s) := by
  obtain ⟨hs, hp, hr⟩ := h
  have ready : s.evReady = true := s.evReady_iff.mpr ⟨hs, hp⟩
  simp [acceptEvent, hs, ready, hr]

/-- A held event changes nothing. -/
theorem acceptEvent_holding {s : State} (h : s.Holding) (f : State → State) : acceptEvent s f = .next s := by
  rcases h with h | h | ⟨h, hp⟩ <;> simp [acceptEvent, State.evReady, *]

/-- The reserved status code faults. -/
theorem acceptEvent_reservedStatus {s : State} (h : s.status = statusReserved) (f : State → State) :
    acceptEvent s f = .fault .reservedStatus := if_pos h

/-- An event accepted in a refused run is refused. -/
theorem acceptEvent_marked {s : State} {c : RefusalCause} (hs : s.status = statusRunning) (hp : s.outPending = false)
    (hr : s.refusal = some c) (f : State → State) : acceptEvent s f = .refused (.refusalRecorded c) := by
  have ready : s.evReady = true := s.evReady_iff.mpr ⟨hs, hp⟩
  simp [acceptEvent, hs, ready, hr]

/-- The effect of each event, as one function of the event. -/
def eventEffect : Instr → State → State
  | .byte v => fun s => ((s.placeByte v).countByte).commitIfFull
  | .eos => fun s => s.commit.enterStatus statusEnded
  | .fault => fun s => s.enterStatus statusFaulted
  | .reserved data => fun s => s.markRefusal (.reservedEventKind (0b11#2 ++ data))

/-- Every event is its effect behind the acceptance condition. -/
theorem exec_eq_acceptEvent (i : Instr) (s : State) : exec i s = acceptEvent s (eventEffect i) := by
  cases i <;> rfl

/-- Every event completes, with its effect, where events are accepted. -/
theorem exec_accepting {s : State} (h : s.Accepting) (i : Instr) : exec i s = .next (eventEffect i s) := by
  rw [exec_eq_acceptEvent, acceptEvent_accepting h]

/-- Everything an event can answer with a next state. -/
theorem exec_cases {i : Instr} {s t : State} (h : exec i s = .next t) :
    t = s ∨ (s.Accepting ∧ t = eventEffect i s) := by
  rw [exec_eq_acceptEvent] at h
  obtain ⟨-, ⟨-, ht⟩ | ⟨hr, hm, ht⟩⟩ := acceptEvent_next h
  · exact Or.inl ht
  · obtain ⟨h1, h2⟩ := s.evReady_iff.mp hr
    exact Or.inr ⟨⟨h1, h2, hm⟩, ht⟩

/-- `fetch` where the configuration is legal. -/
theorem fetch_legal {s : State} (h : s.Legal) :
    fetch s =
      if s.sample.rst then .settled s.dropInput.resetBlock
      else if s.sample.outReady && s.outValid then .settled s.dropInput.acceptOutput
      else if s.sample.evValid then .event (decode s.sample.ev) s.dropInput
      else .settled s.dropInput := by
  unfold fetch
  have h' : configCheck s.params = [] := h
  rw [h']

/-- A step that answers a next state has a legal configuration. -/
theorem legal_of_step_next {s t : State} (h : step s = .next t) : s.Legal := by
  unfold step fetch at h
  unfold State.Legal
  cases hc : configCheck s.params with
  | nil => rfl
  | cons c cs => simp [hc] at h

/-- Everything a step can answer with a next state: reset, output acceptance, an accepted event, or a wait (R5, R64, R112). -/
theorem step_cases {s t : State} (h : step s = .next t) :
    (s.sample.rst = true ∧ t = s.dropInput.resetBlock) ∨
    (s.sample.rst = false ∧ s.sample.outReady = true ∧ s.outPending = true ∧ t = s.dropInput.acceptOutput) ∨
    (s.sample.rst = false ∧ s.sample.evValid = true ∧ s.status = statusRunning ∧ s.outPending = false ∧
      s.refusal = none ∧ t = eventEffect (decode s.sample.ev) s.dropInput) ∨
    (s.sample.rst = false ∧ t = s.dropInput) := by
  have hl := legal_of_step_next h
  unfold step at h
  rw [fetch_legal hl] at h
  by_cases h1 : s.sample.rst = true
  · simp [h1] at h ⊢; exact h.symm
  · simp only [Bool.not_eq_true] at h1
    simp only [h1, Bool.false_eq_true, if_false] at h
    by_cases h2 : (s.sample.outReady && s.outValid) = true
    · rw [if_pos h2] at h
      simp only [Bool.and_eq_true] at h2
      cases h
      exact Or.inr (Or.inl ⟨h1, h2.1, h2.2, rfl⟩)
    · rw [if_neg h2] at h
      by_cases h3 : s.sample.evValid = true
      · simp only [h3, if_true, exec_eq_acceptEvent] at h
        obtain ⟨_, ⟨_, ht⟩ | ⟨hr, hm, ht⟩⟩ := acceptEvent_next h
        · exact Or.inr (Or.inr (Or.inr ⟨h1, ht⟩))
        · have := (State.evReady_iff _).mp hr
          exact Or.inr (Or.inr (Or.inl ⟨h1, h3, this.1, this.2, hm, ht⟩))
      · simp only [h3] at h
        cases h
        exact Or.inr (Or.inr (Or.inr ⟨h1, rfl⟩))

end Sys2Proof.Machine
end

