-- ==== Sys2Proof/Tests/Slice0.lean ====
section
/-! SUPPORT. Tests with expected results from the spec's vectors (95_test_vectors.md), the words of 30_encoding.md, and one
witness for the hypotheses of each statement. -/

namespace Sys2Proof.Tests

open Sys2Proof.Machine

/- One theorem at a time: many kernel evaluations at once need more threads than the check's memory limit leaves. -/
set_option Elab.async false

/-- The reset state of a machine with this window length, the other parameters at their defaults. -/
def blockOf (windowBytes : Int) : State := State.resetWith { Params.default with windowBytes := windowBytes }

/-- The next state of an outcome, if it is one. -/
def nextOf : Host.Outcome State Fault Refusal → Option State
  | .next s => some s
  | .fault _ => none
  | .refused _ => none

/-- The refusal of an outcome, if it is one. -/
def refusalOf : Host.Outcome State Fault Refusal → Option Refusal
  | .next _ => none
  | .fault _ => none
  | .refused r => some r

/-- The fault of an outcome, if it is one. -/
def faultOf : Host.Outcome State Fault Refusal → Option Fault
  | .next _ => none
  | .fault f => some f
  | .refused _ => none

/-- L2-7, third row: the state before the byte that fills an 8-byte window. -/
def beforeFull : State :=
  { blockOf 8 with
    byteCount := 7, inst := { left := 0x8000, right := 0x7FFF }, hold := { b0 := 0x64, b1 := 0x00, b2 := 0x38 } }

/-- A tuple pending in RUNNING. -/
def pendingState : State := { blockOf 8 with outPending := true, trace := [OutTuple.zero] }

/-- A state whose refusal mark is set. -/
def markedState : State := { blockOf 8 with refusal := some (.reservedEventKind 0x3A5) }

/-! ### Well-formedness: an ill-formed term for each check -/

theorem test_wellFormed_refuses_reserved : Instr.wellFormed (.reserved 0xA5) = false := by decide
theorem test_wellFormed_refuses_byte_256 : TraceItem.wellFormed (.byte 256) = false := by decide
theorem test_wellFormed_refuses_bytes_300 : TraceItem.wellFormed (.bytes [1, 300]) = false := by decide
/-- R63, L2-1: `group 32768, 0` is an assembly error. -/
theorem test_wellFormed_refuses_group_32768 :
    TraceItem.wellFormed (.group 32768 0) = false ∧ TraceItem.wellFormed (.group 0 (-32769)) = false := by decide

/-! ### Decoding: words written out from R52, R53 and L2-1 -/

/-- KIND 0b00 above DATA 0x80. -/
theorem test_decode_byte : decode 0b0010000000#10 = .byte 0x80#8 := by decide
theorem test_decode_eos : decode 0b0100000000#10 = .eos ∧ decode 0b0111111111#10 = .eos := by decide
theorem test_decode_fault : decode 0b1000000000#10 = .fault ∧ decode 0b1010101011#10 = .fault := by decide
theorem test_decode_reserved : decode 0b1110100101#10 = .reserved 0xA5#8 := by decide
theorem test_decodeTableWord :
    decodeTableWord 16 0x0FF = some (.byte 0xFF) ∧ decodeTableWord 16 0x100 = some .eos ∧
      decodeTableWord 16 0x200 = some .fault ∧ decodeTableWord 16 0x300 = some (.reserved 0) ∧
      decodeTableWord 16 0x400 = none := by decide
/-- L2-1: the words of `group 100, -200`. -/
theorem test_encode_group :
    (groupBytes 100 (-200)).map (fun v => encode (.byte v)) = [0x064, 0x000, 0x038, 0x0FF] := by decide

/-! ### Peak detection: L2-3, L2-4, L2-5 -/

theorem test_decode16_vectors :
    decode16 0x00 0x80 = -32768 ∧ decode16 0xFF 0x7F = 32767 ∧ decode16 0x38 0xFF = -200 ∧ decode16 0x00 0x01 = 256 := by
  decide
theorem test_decodeGroup_vectors :
    decodeGroup 0x00 0x80 0xFF 0x7F = { left := -32768, right := 32767 } ∧
      decodeGroup 0x80 0x00 0x00 0x80 = { left := 128, right := -32768 } := by decide
theorem test_abs16_vectors : abs16 (-32768) = 0x8000 ∧ abs16 (-32767) = 0x7FFF ∧ abs16 (-200) = 0x00C8 := by decide
theorem test_accumulate_vectors :
    maxU16 32767 (abs16 (-32768)) = 32768 ∧ maxU16 200 (abs16 100) = 200 ∧ maxU16 32768 (abs16 32767) = 32768 := by decide
theorem test_process_vectors :
    process [0x00, 0x80, 0xFF] = { left := 0, right := 0 } ∧
      process [0xFF, 0xFF, 0x02, 0x00, 0x00, 0x80] = { left := 1, right := 2 } ∧
      process [0x64, 0x00, 0x38, 0xFF, 0x00, 0x80, 0xFF, 0x7F] = { left := 32768, right := 32767 } := by decide

/-! ### The decay filter: L1-2, L2-6 -/

theorem test_decay_first_updates :
    [0, 1, 2, 13, 100, 1000, 32767, 32768].map (fun p => decayUpdate Params.alphaDefault 0 p) =
      [0x0000000000000000#64, 0x3FB999999999999A#64, 0x3FC999999999999A#64, 0x3FF4CCCCCCCCCCCD#64,
        0x4024000000000000#64, 0x4059000000000000#64, 0x40A9996666666667#64, 0x40A999999999999A#64] := by
  decide +kernel
/-- The two rows that tell this arithmetic from the term-by-term form are the last two. -/
theorem test_decay_vectors :
    decayUpdate Params.alphaDefault 0x4059000000000000 1000 = 0x4067C00000000000#64 ∧
      decayUpdate Params.alphaDefault 0x3FE0000000000000 1 = 0x3FE199999999999A#64 ∧
      decayUpdate Params.alphaDefault 0x40E0000000000000 0 = 0x40DCCCCCCCCCCCCD#64 ∧
      decayUpdate Params.alphaDefault 0x40A999999999999A 0 = 0x40A70A3D70A3D70A#64 ∧
      decayUpdate Params.alphaDefault 0x402A000000000000 13 = 0x402A000000000000#64 := by decide +kernel
theorem test_decay_subnormals :
    [1, 4, 5, 6, 10].map (fun d => decayUpdate Params.alphaDefault d 0) = [1, 4, 4, 5, 9] := by decide +kernel
/-- R88: the term-by-term form gives 13.000000000000002 for d = 13.0 and P = 13. -/
theorem test_binary64_term_by_term :
    Binary64.sub 0x3FF0000000000000 Params.alphaDefault = 0x3FECCCCCCCCCCCCD#64 ∧
      Binary64.add (Binary64.mul 0x3FECCCCCCCCCCCCD 0x402A000000000000)
        (Binary64.mul Params.alphaDefault (peakToF64 13)) = 0x402A000000000001#64 := by decide +kernel
/-- IEEE 754: the largest finite value doubled overflows, and the product of the two least values underflows to zero. -/
theorem test_binary64_edges :
    Binary64.add 0x7FEFFFFFFFFFFFFF 0x7FEFFFFFFFFFFFFF = 0x7FF0000000000000#64 ∧ Binary64.mul 1 1 = 0#64 ∧
      Binary64.sub 1 1 = 0#64 := by decide +kernel

/-! ### Configuration: L2-8 -/

theorem test_configCheck_vectors :
    configCheck Params.default = [] ∧
      configCheck { Params.default with windowBytes := 7 } = [.cfgWindowNotMultipleOf4] ∧
      configCheck { Params.default with windowBytes := 22050 } = [.cfgWindowNotMultipleOf4] ∧
      configCheck { Params.default with windowBytes := -3 } = [.cfgWindowNotPositive] ∧
      configCheck { windowBytes := 0, sampleRateHz := 0xBFF0000000000000, alpha := 0 } =
        [.cfgWindowNotPositive, .cfgRateNotPositive, .cfgAlphaOutOfRange] := by decide +kernel
theorem test_configCheck_special_values :
    configCheck { Params.default with sampleRateHz := 0x7FF0000000000000 } = [.cfgRateNotPositive] ∧
      configCheck { Params.default with sampleRateHz := 0x7FF8000000000000 } = [.cfgRateNotPositive] ∧
      configCheck { Params.default with alpha := 0x3FE0000000000000 } = [] ∧
      configCheck { Params.default with alpha := 0x3FE3333333333333 } = [.cfgAlphaOutOfRange] ∧
      configCheck { Params.default with alpha := 0x7FF8000000000000 } = [.cfgAlphaOutOfRange] := by decide +kernel
/-- R97: 22048 / 4 / 44100 seconds. -/
theorem test_refreshCadence_default : refreshCadence Params.default = 5512 / 44100 := by decide +kernel

/-! ### Events and steps: L2-7 -/

theorem test_byte_first : nextOf (exec (.byte 0x00) (blockOf 8)) = some { blockOf 8 with byteCount := 1 } := by
  decide +kernel
theorem test_byte_fills_window :
    ((nextOf (exec (.byte 0xFF) beforeFull)).map fun t => (t.trace, t.byteCount, t.inst, t.outPending)) =
      some ([{ instL := 32768, instR := 32767, decL := 0x40A999999999999A, decR := 0x40A9996666666667 }], 0,
        { left := 0, right := 0 }, true) := by decide +kernel
theorem test_eos_after_reset :
    ((nextOf (exec .eos (blockOf 8))).map fun t => (t.trace, t.status, t.outPending)) =
      some ([OutTuple.zero], statusEnded, true) := by decide +kernel
/-- L1-4. -/
theorem test_eos_empty_window :
    ((nextOf (exec .eos { blockOf 8 with
        decayed := { left := 0x40A999999999999A, right := 0x40A999999999999A } })).map fun t => t.outTuple) =
      some { instL := 0, instR := 0, decL := 0x40A70A3D70A3D70A, decR := 0x40A70A3D70A3D70A } := by decide +kernel
theorem test_fault_keeps_count :
    nextOf (exec .fault { blockOf 8 with byteCount := 3 }) =
      some { blockOf 8 with byteCount := 3, status := statusFaulted } := by decide +kernel
theorem test_reserved_sets_mark :
    nextOf (step ((blockOf 8).withFetchWord 16 0x3A5)) = some markedState := by decide +kernel
theorem test_reserved_is_held_while_pending : nextOf (exec (.reserved 0xA5) pendingState) = some pendingState := by
  decide +kernel
theorem test_marked_run_is_refused :
    refusalOf (step (markedState.withFetchWord 16 0x000)) = some (.refusalRecorded (.reservedEventKind 0x3A5)) := by
  decide +kernel
theorem test_marked_run_stays_marked_over_reset :
    nextOf (step { markedState with input := [.reset] }) = some markedState := by decide +kernel
theorem test_reserved_status_faults :
    faultOf (exec (.byte 0) { blockOf 8 with status := 0b11 }) = some .reservedStatus := by decide +kernel
/-- R116: a reset in a step with an event offered and an acceptance. -/
theorem test_reset_wins :
    nextOf (step { pendingState with input := [{ rst := true, evValid := true, ev := 0x005, outReady := true }] }) =
      some (blockOf 8) := by decide +kernel
/-- R92: the event offered in the step of an acceptance is not accepted. -/
theorem test_acceptance_excludes_event :
    nextOf (step { pendingState with input := [{ rst := false, evValid := true, ev := 0x005, outReady := true }] }) =
      some { pendingState with outPending := false } := by decide +kernel
/-- The four rows of the opcode table, each as the first event after reset. -/
theorem test_rows_run_after_reset :
    [0x000, 0x100, 0x200, 0x300].all fun w => (nextOf (step (State.reset.withFetchWord 16 w))).isSome := by decide +kernel
theorem test_illegal_configuration_has_no_step :
    refusalOf (step ((blockOf 7).withFetchWord 16 0x000)) = some (.illegalConfiguration [.cfgWindowNotMultipleOf4]) := by
  decide +kernel

/-! ### Output port and trace text: L2-1, L2-2, R62 -/

theorem test_pack_vector :
    OutTuple.pack { instL := 32768, instR := 32767, decL := 0x40A999999999999A, decR := 0x40A9996666666667 } =
      0x40A999666666666740A999999999999A7FFF8000#160 := by decide +kernel
theorem test_assemble_text :
    assembleText "group -1, 2 ; one group\n\n  byte 0x05\nzeros 1\neos".toList =
      .ok ([0x0FF, 0x0FF, 0x002, 0x000, 0x005, 0x000, 0x000, 0x000, 0x000, 0x100].map .event) := by decide +kernel
theorem test_assemble_errors :
    assembleText "byte 256".toList = .error (.byteOutOfRange 256) ∧
      assembleText "group 32768, 0".toList = .error (.groupOutOfRange 32768 0) ∧
      assembleText "BYTE 1".toList = .error (.notAnItem "BYTE 1".toList) := by decide +kernel

/-! ### Witnesses: states and operands that meet the hypotheses of each statement -/

theorem witness_StepRunsOfferedEvent :
    let s := { pendingState with input := [.offer 0x005] }
    s.Legal ∧ s.sample.rst = false ∧ s.sample.evValid = true ∧ (s.sample.outReady = false ∨ s.outPending = false) := by
  decide +kernel
theorem witness_ResetWritesEveryElement :
    let s := { beforeFull with input := [.reset] }
    s.Legal ∧ s.sample.rst = true := by decide +kernel
theorem witness_OutputAcceptanceClearsPending_pending :
    let s := { pendingState with input := [.accept] }
    s.Legal ∧ s.sample.rst = false ∧ s.sample.outReady = true ∧ s.outPending = true := by decide +kernel
theorem witness_OutputAcceptanceClearsPending_not_pending :
    let s := { beforeFull with input := [.accept] }
    s.Legal ∧ s.sample.rst = false ∧ s.sample.outReady = true ∧ s.outPending = false := by decide +kernel
theorem witness_HeldEventsChangeNothing :
    (pendingState.evReady = false ∧ pendingState.status ≠ 0b11#2) ∧
      (({ blockOf 8 with status := 0b01 } : State).evReady = false) ∧
      (({ blockOf 8 with status := 0b10 } : State).evReady = false) := by decide +kernel
theorem witness_IdleStepChangesNothing :
    let s := { beforeFull with input := [.idle] }
    (s.Legal ∧ s.sample.rst = false ∧ s.sample.outReady = false ∧ s.sample.evValid = false) ∧
      (beforeFull.Legal ∧ beforeFull.input = []) := by decide +kernel
theorem witness_ConfigCheckReportsEveryCode :
    configCheck { Params.default with windowBytes := 4 } = [] ∧
      configCheck { Params.default with windowBytes := 2 } ≠ [] := by decide +kernel
theorem witness_IllegalConfigurationHasNoStep : configCheck (blockOf 7).params ≠ [] := by decide +kernel
theorem witness_ReservedStatusFaults : ({ blockOf 8 with status := 0b11 } : State).status = 0b11#2 := by decide +kernel
theorem witness_MarkedRunStaysRefused :
    markedState.status = 0b00#2 ∧ markedState.outPending = false ∧
      markedState.refusal = some (.reservedEventKind 0x3A5) := by decide +kernel
theorem witness_LegalRunsNeverStop :
    beforeFull.Legal ∧ beforeFull.status ≠ 0b11#2 ∧ beforeFull.refusal = none := by decide +kernel
/-- Group positions 0, 1 and 2. -/
theorem witness_BytePlacesCountsAndCommits_early :
    (beforeFull.Accepting ∧ beforeFull.Legal) ∧ ({ beforeFull with byteCount := 4 } : State).byteCount % 4 = 0 ∧
      ({ beforeFull with byteCount := 5 } : State).byteCount % 4 = 1 ∧
      ({ beforeFull with byteCount := 6 } : State).byteCount % 4 = 2 := by decide +kernel
/-- The hold clause of the statements about the four events, in its three cases. -/
theorem witness_holding :
    pendingState.Holding ∧ ({ blockOf 8 with status := 0b01 } : State).Holding ∧
      ({ blockOf 8 with status := 0b10 } : State).Holding := by decide +kernel
/-- The last byte of a group that is not the last of the window. -/
theorem witness_BytePlacesCountsAndCommits_group :
    let s := { beforeFull with byteCount := 3 }
    s.Accepting ∧ s.Legal ∧ s.byteCount % 4 = 3 ∧ (s.byteCount : Int) + 1 ≠ s.params.windowBytes := by decide +kernel
/-- The last byte of the window. -/
theorem witness_BytePlacesCountsAndCommits_full :
    beforeFull.Accepting ∧ beforeFull.Legal ∧ beforeFull.byteCount % 4 = 3 ∧
      (beforeFull.byteCount : Int) + 1 = beforeFull.params.windowBytes := by decide +kernel
/-- Serves the statements about EOS, FAULT and RESERVED as well. -/
theorem witness_accepting : State.reset.Accepting ∧ beforeFull.Accepting := by decide +kernel
theorem witness_EventsFrame :
    (nextOf (exec (.byte 0xFF) beforeFull)).isSome ∧ (nextOf (exec (.byte 0x01) State.reset)).isSome ∧
      (nextOf (exec .eos beforeFull)).isSome ∧ (nextOf (exec .fault beforeFull)).isSome ∧
      (nextOf (exec (.reserved 1) beforeFull)).isSome := by decide +kernel
theorem witness_samples : (-32768 : Int) ≤ -32768 ∧ (-32768 : Int) ≤ 32767 ∧ (32767 : Int) ≤ 32767 := by decide
theorem witness_LanesAreIndependent :
    beforeFull.inst.left = { beforeFull with byteCount := 3 }.inst.left ∧
      beforeFull.inst.right = { beforeFull with byteCount := 3 }.inst.right ∧
      beforeFull.decayed = { beforeFull with byteCount := 3 }.decayed ∧
      beforeFull.params.alpha = { beforeFull with byteCount := 3 }.params.alpha := by decide +kernel
theorem witness_StreamingMatchesReference :
    let window : List Byte := [0xFF, 0xFF, 0x02, 0x00, 0x00, 0x80]
    (blockOf 8).Accepting ∧ (blockOf 8).Legal ∧ (blockOf 8).byteCount = 0 ∧
      (blockOf 8).inst = { left := 0, right := 0 } ∧ (window.length : Int) < (blockOf 8).params.windowBytes := by
  decide +kernel
theorem witness_FullWindowEmitsReferenceTuple :
    let window : List Byte := [0x01, 0x00, 0xFF, 0xFF]
    let s := { blockOf 4 with input := offerBytes window ++ [HostInput.accept] }
    s.Accepting ∧ s.Legal ∧ s.byteCount = 0 ∧ s.inst = { left := 0, right := 0 } ∧
      (window.length : Int) = s.params.windowBytes ∧ s.input = offerBytes window ++ [HostInput.accept] := by decide +kernel
/-- Finite operands with finite results, one of them a tie: 1 + 2^-53 lies between 1 and its successor. -/
theorem witness_rounding :
    Binary64.isFinite 0x3FF0000000000000 = true ∧ Binary64.isFinite 0x3CA0000000000000 = true ∧
      Binary64.isFinite (Binary64.add 0x3FF0000000000000 0x3CA0000000000000) = true ∧
      Binary64.isFinite (Binary64.sub 0x3FF0000000000000 0x3CA0000000000000) = true ∧
      Binary64.isFinite (Binary64.mul 0x3FF0000000000000 0x3CA0000000000000) = true := by decide +kernel
/-- A legal ALPHA with decayed peaks below, at and above the instant peak. -/
theorem witness_decay :
    checkAlpha Params.alphaDefault = [] ∧ decayInRange 0x4059000000000000 = true ∧
      Binary64.le 0x4059000000000000 (peakToF64 1000) = true ∧ Binary64.le (peakToF64 13) 0x4059000000000000 = true ∧
      Binary64.le 0x4059000000000000 (peakToF64 100) = true ∧ Binary64.le (peakToF64 100) 0x4059000000000000 = true ∧
      (1000 : U16).toNat ≤ 32768 := by decide +kernel
/-- Both sides of the boundary at 5 units. -/
theorem witness_SilenceDecaysStrictly :
    decayInRange 5 = true ∧ 5 ≤ (5 : F64).toNat ∧ decayInRange 4 = true ∧ (4 : F64).toNat ≤ 4 := by decide +kernel
theorem witness_invariants :
    beforeFull.windowInv = true ∧ beforeFull.outputInv = true ∧ beforeFull.decayInv = true ∧
      (nextOf (step (beforeFull.withFetchWord 16 0x0FF))).isSome := by decide +kernel
theorem witness_TerminalStatusesAreInert :
    let s := { pendingState with status := 0b01, input := [.offer 0x005] }
    s.Legal ∧ (s.status = 0b01#2 ∨ s.status = 0b10#2) ∧ s.sample.rst = false := by decide +kernel
theorem witness_RefusalMarkIsSticky :
    markedState.refusal = some (.reservedEventKind 0x3A5) ∧ (nextOf (step markedState)).isSome := by decide +kernel
theorem witness_TraceGrowsByCommittedTuples :
    let s := beforeFull.withFetchWord 16 0x0FF
    s.sample.rst = false ∧ (nextOf (step s)).isSome := by decide +kernel
theorem witness_StaleHoldIsUnobservable :
    (blockOf 8).sameButStaleHold { blockOf 8 with hold := { b0 := 1, b1 := 2, b2 := 3 } } := by
  unfold State.sameButStaleHold
  decide +kernel

/-- A schedule with idle samples before, between and after its actions. -/
theorem witness_PacingIsInvisible :
    (blockOf 4).Legal ∧
      ([.idle, .offer 0x001, .idle].filter fun p => p != HostInput.idle) = [HostInput.offer 0x001] := by decide +kernel

end Sys2Proof.Tests
end

section
/-! PROOFS of the statements on 00_scope.md (R5, R11, R14): one step runs the offered event, the counter width, and the correct
rounding of binary64 addition, subtraction and multiplication. -/

namespace Sys2Proof.Machine

/-- Settles O7: with a legal configuration and neither a reset nor an acceptance, `fetch` takes in the offered event (R108). -/
theorem stepRunsOfferedEvent : Obligations.StepRunsOfferedEvent := by
  intro s legal noReset offered noAccept
  have idleOutput : (s.sample.outReady && s.outValid) = false := by
    rcases noAccept with h | h <;> simp [State.outValid, h]
  have hfetch : fetch s = .event (decode s.sample.ev) s.dropInput := by
    simp [fetch_legal legal, noReset, idleOutput, offered]
  rw [step, hfetch]
  rfl

/-- Settles O50: the count is below WINDOW_BYTES (R38), which is at most 2 to its ceiling logarithm (R11). -/
theorem counterFitsItsWidth : Obligations.CounterFitsItsWidth := by
  intro s hinv
  have hcount : (s.byteCount : Int) < s.params.windowBytes := by
    simp only [State.windowInv, Bool.and_eq_true, decide_eq_true_eq] at hinv
    obtain ⟨⟨hlt, -⟩, -⟩ := hinv
    exact hlt
  refine ⟨?_, le_max_left _ _⟩
  calc s.byteCount < s.params.windowBytes.toNat := by omega
    _ ≤ 2 ^ Nat.clog 2 s.params.windowBytes.toNat := Nat.le_pow_clog (by norm_num) _
    _ ≤ 2 ^ counterWidth s.params := Nat.pow_le_pow_right (by norm_num) (le_max_right _ _)

namespace Binary64

/-! ### Nearest, ties to even -/

/-- `r` is correctly rounded (R14): no finite value lies nearer to `exact` units of 2^-(1074 + k), and where another value lies
equally near, the significand of `r` is even. -/
def NearestEven (k : Nat) (r : F64) (exact : Int) : Prop :=
  ∀ z : F64, isFinite z = true →
    |units r * 2 ^ k - exact| ≤ |units z * 2 ^ k - exact| ∧
      (|units r * 2 ^ k - exact| = |units z * 2 ^ k - exact| → units r ≠ units z → r.toNat % 2 = 0)

/-- On magnitudes: no pattern's value lies nearer to `m` than that of the rounding, and where another one's lies equally near,
the rounding is even. A pattern that is neither neighbour of `m` lies strictly beyond one of them. -/
theorem roundMag_nearest {k m : Nat} (hfin : roundMag k m < infPattern) (p : Nat) :
    |(magOf (roundMag k m) : Int) * 2 ^ k - m| ≤ |(magOf p : Int) * 2 ^ k - m| ∧
      (|(magOf (roundMag k m) : Int) * 2 ^ k - m| = |(magOf p : Int) * 2 ^ k - m| →
        p ≠ roundMag k m → roundMag k m % 2 = 0) := by
  have cast_scaled : ∀ a : Nat, (a : Int) * 2 ^ k = ((a * 2 ^ k : Nat) : Int) := fun a => by push_cast; rfl
  have scaled_lt : ∀ {a b : Nat}, a < b → magOf a * 2 ^ k < magOf b * 2 ^ k := fun h =>
    Nat.mul_lt_mul_of_pos_right (magOf_lt_iff.mpr h) (by positivity)
  obtain ⟨lo, hlo, hhi, hround, htie⟩ := roundMag_between k m
  rw [Nat.add_mul] at hround htie
  have hnearer : (roundMag k m = lo ∧ 2 * m ≤ magOf lo * 2 ^ k + magOf (lo + 1) * 2 ^ k) ∨
      (roundMag k m = lo + 1 ∧ magOf lo * 2 ^ k + magOf (lo + 1) * 2 ^ k ≤ 2 * m) := by omega
  have hplace : p = lo ∨ p = lo + 1 ∨ magOf p * 2 ^ k < magOf lo * 2 ^ k ∨
      magOf (lo + 1) * 2 ^ k < magOf p * 2 ^ k := by
    rcases (by omega : p = lo ∨ p = lo + 1 ∨ p < lo ∨ lo + 1 < p) with h | h | h | h
    · exact .inl h
    · exact .inr (.inl h)
    · exact .inr (.inr (.inl (scaled_lt h)))
    · exact .inr (.inr (.inr (scaled_lt h)))
  simp only [cast_scaled, Int.abs_eq_natAbs]
  rcases hnearer with ⟨hR, hside⟩ | ⟨hR, hside⟩ <;> rw [hR] at htie ⊢
  · rcases hplace with rfl | rfl | hp | hp <;> omega
  · rcases hplace with rfl | rfl | hp | hp <;> omega

/-- Inverting the sign of a value and of the exact one keeps their distance. -/
theorem abs_sub_of_sameSign (n : Bool) (a c b : Int) :
    |(if n then -a else a) * c - (if n then -b else b)| = |a * c - b| := by
  cases n
  · rfl
  · rw [if_pos rfl, if_pos rfl, ← abs_neg]; ring_nf

/-- A finite result with the sign and the rounded magnitude of the exact value is correctly rounded: a value of the same sign
compares by its magnitude, and one of the other sign is no nearer than zero. -/
theorem nearestEven_withSign_roundMag {k m : Nat} {n : Bool} {exact : Int}
    (hexact : exact = if n then -(m : Int) else (m : Int)) (hfin : isFinite (withSign n (roundMag k m)) = true) :
    NearestEven k (withSign n (roundMag k m)) exact := by
  intro z _
  have hlt := roundMag_lt k m
  have hR : roundMag k m < infPattern := by rwa [isFinite_iff, toNat_withSign_mod hlt] at hfin
  have hparity : (withSign n (roundMag k m)).toNat % 2 = roundMag k m % 2 := by
    rw [toNat_withSign hlt]; split <;> omega
  rw [hexact, hparity, units_withSign hlt, abs_sub_of_sameSign]
  by_cases hsign : sign z = n
  · obtain ⟨hle, htie⟩ := roundMag_nearest hR (z.toNat % 2 ^ 63)
    rw [← magUnits_eq] at hle htie
    rw [units, hsign, abs_sub_of_sameSign]
    refine ⟨hle, fun heq hne => htie heq fun hpattern => hne ?_⟩
    rw [magUnits_eq, hpattern]
  · obtain ⟨hle, htie⟩ := roundMag_nearest hR 0
    have hz : units z = if n then -(-(magUnits z : Int)) else -(magUnits z : Int) := by
      unfold units; cases n <;> simp_all
    have hzero : (0 : Int) ≤ (magUnits z : Int) * 2 ^ k := by positivity
    rw [hz, abs_sub_of_sameSign]
    rw [magOf_zero, Nat.cast_zero, Int.zero_mul] at hle htie
    simp only [Int.abs_eq_natAbs, Int.neg_mul] at hle htie ⊢
    omega

/-- R14: addition of finite operands is correctly rounded; an exact zero sum is a zero of either sign. -/
theorem add_nearestEven {x y : F64} (hx : isFinite x = true) (hy : isFinite y = true) (hfin : isFinite (add x y) = true) :
    NearestEven 0 (add x y) (units x + units y) := by
  rw [add_finite hx hy] at hfin ⊢
  by_cases hzero : units x + units y = 0
  · have hadd : addFinite x y = withSign (sign x && sign y) (roundMag 0 0) := by
      simp only [addFinite, if_pos hzero]; rfl
    have hexact : units x + units y =
        if sign x && sign y then -((0 : Nat) : Int) else ((0 : Nat) : Int) := by
      rw [hzero, Nat.cast_zero, neg_zero, ite_self]
    rw [hadd] at hfin ⊢
    exact nearestEven_withSign_roundMag hexact hfin
  · have hadd : addFinite x y =
        withSign (decide (units x + units y < 0)) (roundMag 0 (units x + units y).natAbs) := by
      simp only [addFinite, if_neg hzero]
    have hexact : units x + units y =
        if decide (units x + units y < 0) then -((units x + units y).natAbs : Int)
        else ((units x + units y).natAbs : Int) := by
      simp only [decide_eq_true_eq]; split <;> omega
    rw [hadd] at hfin ⊢
    exact nearestEven_withSign_roundMag hexact hfin

/-- R14: multiplication of finite operands is correctly rounded. -/
theorem mul_nearestEven {x y : F64} (hx : isFinite x = true) (hy : isFinite y = true) (hfin : isFinite (mul x y) = true) :
    NearestEven 1074 (mul x y) (units x * units y) := by
  have hexact : units x * units y =
      if sign x != sign y then -((magUnits x * magUnits y : Nat) : Int) else ((magUnits x * magUnits y : Nat) : Int) := by
    unfold units
    cases sign x <;> cases sign y <;> simp
  rw [mul_finite hx hy] at hfin ⊢
  exact nearestEven_withSign_roundMag hexact hfin

end Binary64

/-- Settles O31: the sum by `add_nearestEven`, and the difference as the sum with the second operand negated. -/
theorem addAndSubRoundToNearestEven : Obligations.AddAndSubRoundToNearestEven := by
  intro x y z hx hy hz
  refine ⟨fun hfin => ?_, fun hfin => ?_⟩
  · have h := Binary64.add_nearestEven hx hy hfin z hz
    rwa [pow_zero, mul_one, mul_one] at h
  · have hny : Binary64.isFinite (Binary64.neg y) = true := by rwa [Binary64.isFinite_neg]
    have h := Binary64.add_nearestEven hx hny hfin z hz
    rwa [pow_zero, mul_one, mul_one, Binary64.units_neg, ← sub_eq_add_neg] at h

/-- Settles O32: a finite product is one rounding, in units of 2^-2148, by `mul_nearestEven`. -/
theorem mulRoundsToNearestEven : Obligations.MulRoundsToNearestEven :=
  fun _ _ z hx hy hz hfin => Binary64.mul_nearestEven hx hy hfin z hz

end Sys2Proof.Machine
end

section
/-! PROOFS of the statements on 10_state.md (R20 to R38): the reset values, which events write which element, the invariants
that every step keeps, and that a stale `hold` byte is never observable. -/

namespace Sys2Proof.Machine

/-! ### What the events do to the state -/

/-- Counting a byte either leaves the window open or commits it (R65). -/
theorem State.commitIfFull_eq_or (s : State) : s.commitIfFull = s ∨ s.commitIfFull = s.commit := by
  unfold State.commitIfFull
  split
  · exact .inr rfl
  · exact .inl rfl

@[simp] theorem eventEffect_params (i : Instr) (s : State) : (eventEffect i s).params = s.params := by
  cases i <;> simp [eventEffect]

@[simp] theorem eventEffect_input (i : Instr) (s : State) : (eventEffect i s).input = s.input := by
  cases i <;> simp [eventEffect]

@[simp] theorem eventEffect_byte_status (v : Byte) (s : State) : (eventEffect (.byte v) s).status = s.status := by
  simp [eventEffect]

/-- Where the trace does not grow there was no commit, so that the decayed peaks, the output register and `out_pending` stay (R93). -/
theorem eventEffect_frame_of_trace_eq {i : Instr} {s : State} (h : (eventEffect i s).trace = s.trace) :
    (eventEffect i s).decayed = s.decayed ∧ (eventEffect i s).outTuple = s.outTuple ∧
      (eventEffect i s).outPending = s.outPending := by
  cases i with
  | byte v =>
    simp only [eventEffect] at h ⊢
    rcases (s.placeByte v).countByte.commitIfFull_eq_or with heq | heq
    · simp [heq]
    · simp [heq] at h
  | eos => simp [eventEffect] at h
  | fault => exact ⟨rfl, rfl, rfl⟩
  | reserved data => exact ⟨rfl, rfl, rfl⟩

/-- Settles O22: a held event changes nothing, and each clause names the events whose effect may write its elements. -/
theorem eventsFrame : Obligations.EventsFrame := by
  intro i s t h
  rcases exec_cases h with rfl | ⟨-, rfl⟩
  · simp
  · refine ⟨eventEffect_params i s, eventEffect_input i s, fun notByte => ?_, fun notEos notFault => ?_,
      fun notReserved => ?_, fun notByte notEos => ?_, eventEffect_frame_of_trace_eq⟩
    · cases i with
      | byte v => exact absurd rfl (notByte v)
      | _ => rfl
    · cases i with
      | byte v => exact eventEffect_byte_status v s
      | eos => exact absurd rfl notEos
      | fault => exact absurd rfl notFault
      | reserved data => rfl
    · cases i with
      | byte v => simp [eventEffect]
      | reserved data => exact absurd rfl (notReserved data)
      | _ => rfl
    · cases i with
      | byte v => exact absurd rfl (notByte v)
      | eos => exact absurd rfl notEos
      | _ => exact ⟨rfl, rfl, rfl⟩

/-- Settles O23: an effect is run only in RUNNING, and only those of EOS and FAULT write the status. -/
theorem statusChangesOnlyFromRunning : Obligations.StatusChangesOnlyFromRunning := by
  intro i s t h
  rcases exec_cases h with rfl | ⟨⟨running, -, -⟩, rfl⟩
  · exact .inl rfl
  · cases i with
    | byte v => exact .inl (eventEffect_byte_status v s)
    | eos => exact .inr ⟨running, .inl ⟨rfl, rfl⟩⟩
    | fault => exact .inr ⟨running, .inr ⟨rfl, rfl⟩⟩
    | reserved data => exact .inl rfl

/-- `ev_ready = 0` with a status that the block produces is one of the cases in which an event is held (R30). -/
theorem State.holding_of_not_ready {s : State} (notReady : s.evReady = false) (produced : s.status ≠ statusReserved) :
    s.Holding := by
  have codes : s.status = statusRunning ∨ s.status = statusEnded ∨ s.status = statusFaulted := by
    revert produced
    generalize s.status = code
    revert code
    decide
  rcases codes with hs | hs | hs
  · refine .inr (.inr ⟨hs, ?_⟩)
    simpa [State.evReady, hs] using notReady
  · exact .inl hs
  · exact .inr (.inl hs)

/-- Settles O11: `ev_ready` by its two inputs, and a hold for every event by `acceptEvent_holding`. -/
theorem heldEventsChangeNothing : Obligations.HeldEventsChangeNothing := by
  intro i s
  refine ⟨s.evReady_iff, fun notReady produced => ?_⟩
  rw [exec_eq_acceptEvent]
  exact acceptEvent_holding (State.holding_of_not_ready notReady produced) _

/-- Settles O15: acceptance, which every event shares, faults on the code. -/
theorem reservedStatusFaults : Obligations.ReservedStatusFaults := by
  intro i s hs
  rw [exec_eq_acceptEvent]
  exact acceptEvent_reservedStatus hs _

/-- Settles O9: the fields of the reset state, and `resetBlock_refusal`. -/
theorem resetStateHasSpecValues : Obligations.ResetStateHasSpecValues :=
  ⟨rfl, rfl, rfl, rfl, rfl, rfl, rfl, rfl, rfl, State.resetBlock_refusal⟩

/-! ### What every step keeps -/

/-- A property is kept by a step if it is kept by each of the four things a step can do: use up a port sample, reset, accept
the pending tuple, run an accepted event (R5). -/
theorem step_keeps {P : State → Prop} {s t : State} (h : step s = .next t) (hs : P s)
    (wait : ∀ u : State, P u → P u.dropInput) (reset : ∀ u : State, P u → P u.resetBlock)
    (accept : ∀ u : State, P u → P u.acceptOutput)
    (event : ∀ (i : Instr) (u : State), u.Legal → u.Accepting → P u → P (eventEffect i u)) : P t := by
  have legal : s.dropInput.Legal := show s.Legal from legal_of_step_next h
  rcases step_cases h with ⟨-, rfl⟩ | ⟨-, -, -, rfl⟩ | ⟨-, -, running, free, unmarked, rfl⟩ | ⟨-, rfl⟩
  · exact reset _ (wait s hs)
  · exact accept _ (wait s hs)
  · exact event _ _ legal ⟨running, free, unmarked⟩ (wait s hs)
  · exact wait s hs

/-- Settles O46: no effect writes the parameters. -/
theorem parametersNeverChange : Obligations.ParametersNeverChange := by
  intro s t h
  refine step_keeps (P := fun u => u.params = s.params) h rfl ?_ ?_ ?_ ?_
  · exact fun _ hu => hu
  · exact fun _ hu => hu
  · exact fun _ hu => hu
  · exact fun i u _ _ hu => (eventEffect_params i u).trans hu

/-- Settles O45: reset keeps the mark, and no event has its effect where the mark is set. -/
theorem refusalMarkIsSticky : Obligations.RefusalMarkIsSticky := by
  intro s t c hs h
  refine step_keeps (P := fun u => u.refusal = some c) h hs ?_ ?_ ?_ ?_
  · exact fun _ hu => hu
  · exact fun _ hu => hu
  · exact fun _ hu => hu
  · intro i u _ accepting hu
    obtain ⟨-, -, unmarked⟩ := accepting
    rw [unmarked] at hu
    cases hu

/-! ### The window invariant (R31, R38(a), R38(c)) -/

/-- Both instant peaks lie in [0, 32768] (R38(a)). -/
abbrev State.PeaksInRange (s : State) : Prop := s.inst.left.toNat ≤ 32768 ∧ s.inst.right.toNat ≤ 32768

theorem State.windowInv_iff (s : State) :
    s.windowInv = true ↔
      (s.byteCount : Int) < s.params.windowBytes ∧ s.PeaksInRange ∧ s.status ≠ statusReserved := by
  simp [State.windowInv, peakInRange, and_assoc]

/-- A placed byte keeps the peaks in range: it leaves them alone, or folds in a group of samples. -/
theorem State.placeByte_peaksInRange {s : State} (h : s.PeaksInRange) (v : Byte) : (s.placeByte v).PeaksInRange := by
  unfold State.placeByte
  split
  · exact h
  · exact foldGroup_le h _ _ _ _

/-- The empty window of a running block meets the window invariant. -/
theorem State.windowInv_of_empty {s : State} (positive : 0 < s.params.windowBytes) (count : s.byteCount = 0)
    (peaks : s.inst = { left := 0, right := 0 }) (produced : s.status ≠ statusReserved) : s.windowInv = true := by
  rw [State.windowInv_iff, State.PeaksInRange, count, peaks]
  exact ⟨by simpa using positive, by decide, produced⟩

/-- A counted byte leaves the count below WINDOW_BYTES, or fills the window, which is then committed (R65). -/
theorem windowInv_byte {s : State} (h : s.windowInv = true) (v : Byte) : (eventEffect (.byte v) s).windowInv = true := by
  obtain ⟨count, peaks, produced⟩ := s.windowInv_iff.mp h
  simp only [eventEffect]
  by_cases full : (((s.placeByte v).countByte.byteCount : Nat) : Int) = (s.placeByte v).countByte.params.windowBytes
  · rw [State.commitIfFull_full _ full]
    exact State.windowInv_of_empty (by simp; omega) rfl rfl (by simpa using produced)
  · rw [State.commitIfFull_not_full _ full, State.windowInv_iff]
    simp only [State.countByte_byteCount, State.placeByte_byteCount, State.countByte_params, State.placeByte_params,
      Nat.cast_add, Nat.cast_one] at full ⊢
    exact ⟨by omega, State.placeByte_peaksInRange peaks v, by simpa using produced⟩

/-- Every event keeps the window invariant. -/
theorem windowInv_eventEffect {s : State} (h : s.windowInv = true) (i : Instr) :
    (eventEffect i s).windowInv = true := by
  obtain ⟨count, peaks, produced⟩ := s.windowInv_iff.mp h
  have positive : 0 < s.params.windowBytes := by omega
  cases i with
  | byte v => exact windowInv_byte h v
  | eos => exact State.windowInv_of_empty positive rfl rfl (by simp [eventEffect])
  | fault => exact (State.windowInv_iff _).mpr ⟨count, peaks, by simp [eventEffect]⟩
  | reserved data => exact (State.windowInv_iff _).mpr ⟨count, peaks, produced⟩

theorem windowInv_resetBlock {s : State} (h : s.windowInv = true) : s.resetBlock.windowInv = true := by
  obtain ⟨count, -, -⟩ := s.windowInv_iff.mp h
  exact State.windowInv_of_empty (show 0 < s.params.windowBytes by omega) rfl rfl (by simp)

/-- Settles O41: reset and the events keep the invariant, and nothing else writes its elements. -/
theorem stepKeepsWindowInvariant : Obligations.StepKeepsWindowInvariant := by
  intro s t hs h
  refine step_keeps (P := fun u => u.windowInv = true) h hs ?_ ?_ ?_ ?_
  · exact fun _ hu => hu
  · exact fun _ hu => windowInv_resetBlock hu
  · exact fun _ hu => hu
  · exact fun i _ _ _ hu => windowInv_eventEffect hu i

/-! ### The output invariant (R32, R33, R91) -/

theorem State.outputInv_iff (s : State) :
    s.outputInv = true ↔
      s.outTuple = s.trace.getLast?.getD OutTuple.zero ∧ (s.outPending = true → s.trace ≠ []) := by
  simp [State.outputInv, imp_iff_not_or]

/-- Emission makes the tuple it makes pending the last element of the trace, whatever stood there before. -/
theorem outputInv_commit (s : State) : s.commit.outputInv = true := by
  rw [State.outputInv_iff]
  simp

/-- Every event keeps the output invariant: it commits, or writes none of its elements. -/
theorem outputInv_eventEffect {s : State} (h : s.outputInv = true) (i : Instr) :
    (eventEffect i s).outputInv = true := by
  cases i with
  | byte v =>
    rcases (s.placeByte v).countByte.commitIfFull_eq_or with heq | heq
    · rw [State.outputInv_iff] at h ⊢
      simpa [eventEffect, heq] using h
    · simp only [eventEffect, heq, outputInv_commit]
  | eos => exact outputInv_commit s
  | fault => exact h
  | reserved data => exact h

/-- Settles O42: the events keep the invariant, and reset and an acceptance leave nothing pending. -/
theorem stepKeepsOutputInvariant : Obligations.StepKeepsOutputInvariant := by
  intro s t hs h
  refine step_keeps (P := fun u => u.outputInv = true) h hs ?_ ?_ ?_ ?_
  · exact fun _ hu => hu
  · exact fun _ _ => rfl
  · intro u hu
    obtain ⟨last, -⟩ := u.outputInv_iff.mp hu
    exact (State.outputInv_iff _).mpr ⟨last, by simp⟩
  · exact fun i _ _ _ hu => outputInv_eventEffect hu i

/-! ### The decay invariant (R33, R38(b), R94) -/

namespace Binary64

theorem mul_two_pow_succ (n t : Nat) : n * 2 ^ (t + 1) = 2 ^ t * (2 * n) := by ring

/-- The product with an ALPHA of at most one half (R9) rounds to at most a value whose double bounds the other factor. -/
theorem roundMag_alpha_mul_le {a x h : Nat} (ha : a ≤ 0x3FE0000000000000) (hh : h ≤ infPattern)
    (hx : magOf x ≤ 2 * magOf h) : roundMag 1074 (magOf a * magOf x) ≤ h := by
  have half : magOf a ≤ 2 ^ 1073 :=
    le_trans (magOf_le_iff.mpr ha) (by decide +kernel : magOf 0x3FE0000000000000 ≤ 2 ^ 1073)
  refine roundMag_le hh ?_
  rw [mul_two_pow_succ (magOf h) 1073]
  exact Nat.mul_le_mul half hx

/-- A rising decayed peak does not pass the instant peak, even before the last rounding of R86. Within a factor of two the
difference is exact (Sterbenz); below that, the product is at most half the instant peak, and so is the decayed peak. -/
theorem magOf_add_product_le {a d p n : Nat} (ha : a ≤ 0x3FE0000000000000) (hp : p < infPattern)
    (hn : n < 2 ^ 53) (hv : magOf p = n * 2 ^ 1074) (hle : magOf d ≤ magOf p) :
    magOf d + magOf (roundMag 1074 (magOf a * magOf (roundMag 0 (magOf p - magOf d)))) ≤ magOf p := by
  rcases Nat.le_total (magOf p) (2 * magOf d) with near | far
  · obtain ⟨r, hr, hdiff⟩ := sub_representable (magOf_le_iff.mp hle) hp near
    have exact_diff : roundMag 0 (magOf p - magOf d) = r := by
      simpa [hdiff] using roundMag_exact 0 hr.le
    have product := magOf_le_iff.mpr (roundMag_alpha_mul_le (x := r) ha hr.le (by omega))
    rw [exact_diff]
    omega
  · obtain ⟨h, hh, hhalf⟩ := representable_of_sig hn (by norm_num : 1073 ≤ 2045)
    have double : magOf p = 2 * magOf h := by
      rw [hv, hhalf, mul_two_pow_succ n 1073, Nat.mul_left_comm, Nat.mul_comm n]
    have diff : roundMag 0 (magOf p - magOf d) ≤ p := roundMag_le hp.le (by simp)
    have product := magOf_le_iff.mpr
      (roundMag_alpha_mul_le ha hh.le ((magOf_le_iff.mpr diff).trans_eq double))
    omega

end Binary64

/-- R94: the filter keeps a decayed peak in range. It rises to at most the instant peak, or falls from the value before. -/
theorem decayUpdate_inRange {alpha d : F64} {peak : U16} (legal : checkAlpha alpha = []) (hd : decayInRange d = true)
    (hpeak : peak.toNat ≤ 32768) : decayInRange (decayUpdate alpha d peak) = true := by
  obtain ⟨-, ha⟩ := (checkAlpha_nil_iff alpha).mp legal
  rw [decayInRange_iff] at hd ⊢
  obtain ⟨p, hp, hpattern, hv⟩ := peakToF64_spec peak
  have hdinf : d.toNat ≤ Binary64.infPattern := hd.trans (by decide)
  rcases le_or_gt (Binary64.magOf d.toNat) (Binary64.magOf p) with rises | falls
  · have hpmax : p ≤ peakMaxPattern := by
      rw [← Binary64.magOf_le_iff, hv, (by decide +kernel : Binary64.magOf peakMaxPattern = 32768 * 2 ^ 1074)]
      exact Nat.mul_le_mul_right _ hpeak
    rw [decayUpdate_rise ha hd hp hpattern rises, Binary64.toNat_withSign (Binary64.roundMag_lt _ _)]
    have bound := Binary64.magOf_add_product_le ha hp (by omega : peak.toNat < 2 ^ 53) hv rises
    rw [if_neg Bool.false_ne_true, zero_add]
    refine (Binary64.roundMag_le hp.le ?_).trans hpmax
    rwa [pow_zero, mul_one]
  · have diff : Binary64.roundMag 0 (Binary64.magOf d.toNat - Binary64.magOf p) ≤ d.toNat :=
      Binary64.roundMag_le hdinf (by simp)
    have product := Binary64.roundMag_alpha_mul_le ha hdinf
      (le_trans (Binary64.magOf_le_iff.mpr diff) (by omega))
    rw [decayUpdate_fall ha hd hp hpattern falls product, Binary64.toNat_withSign (Binary64.roundMag_lt _ _)]
    rw [if_neg Bool.false_ne_true, zero_add]
    exact (Binary64.roundMag_le hdinf (by simp)).trans hd

theorem decayInRange_zero : decayInRange 0 = true := (decayInRange_iff 0).mpr (by decide)

theorem OutTuple.zero_inRange : OutTuple.zero.inRange = true := by
  simp only [OutTuple.inRange, OutTuple.zero, decayInRange_zero]
  decide

theorem State.decayInv_iff (s : State) :
    s.decayInv = true ↔
      (decayInRange s.decayed.left = true ∧ decayInRange s.decayed.right = true) ∧
        s.outTuple.inRange = true ∧ ∀ t ∈ s.trace, t.inRange = true := by
  simp [State.decayInv, and_assoc]

/-- Reset values are in range (R36). -/
theorem decayInv_resetBlock (s : State) : s.resetBlock.decayInv = true :=
  s.resetBlock.decayInv_iff.mpr ⟨⟨decayInRange_zero, decayInRange_zero⟩, OutTuple.zero_inRange, by simp⟩

/-- A commit updates the decayed peaks and emits them with the instant peaks, all in range (R89, R90, R94). -/
theorem decayInv_commit {s : State} (legal : s.Legal) (peaks : s.PeaksInRange) (h : s.decayInv = true) :
    s.commit.decayInv = true := by
  obtain ⟨-, -, alphaLegal⟩ := legal.spec
  obtain ⟨⟨left, right⟩, -, emitted⟩ := s.decayInv_iff.mp h
  obtain ⟨peakLeft, peakRight⟩ := peaks
  have left' := decayUpdate_inRange alphaLegal left peakLeft
  have right' := decayUpdate_inRange alphaLegal right peakRight
  have tuple : s.updateDecay.windowTuple.inRange = true := by
    simp [OutTuple.inRange, State.windowTuple, peakInRange, *]
  refine s.commit.decayInv_iff.mpr ⟨⟨left', right'⟩, tuple, fun t ht => ?_⟩
  rcases List.mem_append.mp ht with old | new
  · exact emitted t old
  · rwa [List.mem_singleton.mp new]

/-- Every event keeps the decay invariant: it commits, with the peaks in range, or writes none of its elements. -/
theorem decayInv_eventEffect {s : State} (legal : s.Legal) (hw : s.windowInv = true) (h : s.decayInv = true) (i : Instr) :
    (eventEffect i s).decayInv = true := by
  obtain ⟨-, peaks, -⟩ := s.windowInv_iff.mp hw
  cases i with
  | byte v =>
    have placed : (s.placeByte v).countByte.decayInv = true := by
      rw [State.decayInv_iff] at h ⊢
      simpa using h
    rcases (s.placeByte v).countByte.commitIfFull_eq_or with heq | heq
    · simpa only [eventEffect, heq] using placed
    · have legal' : (s.placeByte v).countByte.Legal := by
        unfold State.Legal
        simpa using legal
      simpa only [eventEffect, heq] using decayInv_commit legal' (State.placeByte_peaksInRange peaks v) placed
  | eos => exact decayInv_commit legal peaks h
  | fault => exact h
  | reserved data => exact h

/-- Settles O43: together with the window invariant, which bounds the peaks that a commit reads. -/
theorem stepKeepsDecayInvariant : Obligations.StepKeepsDecayInvariant := by
  intro s t hw hd h
  refine (step_keeps (P := fun u => u.windowInv = true ∧ u.decayInv = true) h ⟨hw, hd⟩ ?_ ?_ ?_ ?_).2
  · exact fun _ hu => hu
  · exact fun u hu => ⟨windowInv_resetBlock hu.1, decayInv_resetBlock u⟩
  · exact fun _ hu => hu
  · exact fun i u legal _ hu => ⟨windowInv_eventEffect hu.1 i, decayInv_eventEffect legal hu.1 hu.2 i⟩

/-- Settles O40: an empty window of positive length, an empty trace, and zeros. -/
theorem resetMeetsInvariants : Obligations.ResetMeetsInvariants := by
  intro p legal
  obtain ⟨window, -, -⟩ := (configCheck_nil_iff p).mp legal
  obtain ⟨positive, -⟩ := (checkWindow_nil_iff _).mp window
  exact ⟨State.windowInv_of_empty positive rfl rfl (by simp), rfl, decayInv_resetBlock (State.resetWith p)⟩

/-! ### A stale `hold` byte is never observable (R24, R70) -/

/-- Two contents of `hold` agree on the entries below the group position `k`: those that the current group has written. -/
def Hold.AgreeBelow (k : Nat) (h h' : Hold) : Prop :=
  (1 ≤ k → h.b0 = h'.b0) ∧ (2 ≤ k → h.b1 = h'.b1) ∧ (3 ≤ k → h.b2 = h'.b2)

/-- At the start of a group every entry is stale. -/
theorem Hold.agreeBelow_zero (h h' : Hold) : h.AgreeBelow 0 h' := by
  simp [Hold.AgreeBelow]

/-- Writing the same byte at the group position makes one entry more agree. -/
theorem Hold.AgreeBelow.write {k : Nat} {h h' : Hold} (agree : h.AgreeBelow k h') (hk : k < 3) (v : Byte) :
    (h.write k v).AgreeBelow (k + 1) (h'.write k v) := by
  obtain ⟨first, second, -⟩ := agree
  match k, hk with
  | 0, _ => simp [Hold.AgreeBelow, Hold.write]
  | 1, _ => simp [Hold.AgreeBelow, Hold.write, first le_rfl]
  | 2, _ => simp [Hold.AgreeBelow, Hold.write, first one_le_two, second le_rfl]

/-- The state with other contents of `hold`. -/
def State.withHold (s : State) (h : Hold) : State := { s with hold := h }

theorem State.sameButStaleHold_withHold {s : State} {h : Hold} (agree : s.hold.AgreeBelow s.phase h) :
    s.sameButStaleHold (s.withHold h) := ⟨rfl, agree⟩

theorem State.sameButStaleHold.exists_withHold {s t : State} (h : s.sameButStaleHold t) :
    ∃ k : Hold, t = s.withHold k ∧ s.hold.AgreeBelow s.phase k :=
  ⟨t.hold, h.1.symm, h.2⟩

theorem State.sameButStaleHold_refl (s : State) : s.sameButStaleHold s :=
  State.sameButStaleHold_withHold ⟨fun _ => rfl, fun _ => rfl, fun _ => rfl⟩

/-- At the start of a group the two states may hold any bytes. -/
theorem State.sameButStaleHold_of_groupStart {s : State} (start : s.phase = 0) (h : Hold) :
    s.sameButStaleHold (s.withHold h) :=
  State.sameButStaleHold_withHold (start ▸ Hold.agreeBelow_zero _ _)

theorem State.countByte_placeByte_phase (s : State) (v : Byte) :
    (s.placeByte v).countByte.phase = (s.phase + 1) % 4 := by
  simp [State.phase]

/-- A byte is placed and counted alike: it makes its own entry agree, or completes the group with entries that agree (R65). -/
theorem State.sameButStaleHold.placeByte_countByte {s t : State} (h : s.sameButStaleHold t) (v : Byte) :
    (s.placeByte v).countByte.sameButStaleHold (t.placeByte v).countByte := by
  obtain ⟨k, rfl, agree⟩ := h.exists_withHold
  have next := s.countByte_placeByte_phase v
  rcases Nat.lt_or_ge s.phase 3 with early | late
  · rw [Nat.mod_eq_of_lt (by omega)] at next
    have written : ((s.withHold k).placeByte v).countByte = (s.placeByte v).countByte.withHold (k.write s.phase v) := by
      rw [State.placeByte_early s v early, State.placeByte_early (s.withHold k) v early]
      rfl
    have hold : (s.placeByte v).countByte.hold = s.hold.write s.phase v := by
      rw [State.placeByte_early s v early]
      rfl
    rw [written]
    refine State.sameButStaleHold_withHold ?_
    rw [next, hold]
    exact agree.write early v
  · have last : s.phase = 3 := by
      have : s.phase < 4 := Nat.mod_lt _ (by norm_num)
      omega
    obtain ⟨first, second, third⟩ := agree
    have bytes : k = s.hold :=
      (Hold.ext (first (by omega)) (second (by omega)) (third (by omega))).symm
    rw [bytes]
    exact State.sameButStaleHold_refl _

/-- A commit does not read `hold`, and ends at the start of a group. -/
theorem State.sameButStaleHold.commit {s t : State} (h : s.sameButStaleHold t) : s.commit.sameButStaleHold t.commit := by
  obtain ⟨k, rfl, -⟩ := h.exists_withHold
  exact State.sameButStaleHold_of_groupStart (s := s.commit) rfl k

theorem State.sameButStaleHold.commitIfFull {s t : State} (h : s.sameButStaleHold t) :
    s.commitIfFull.sameButStaleHold t.commitIfFull := by
  have full : t.windowFull = s.windowFull := by
    obtain ⟨k, rfl, -⟩ := h.exists_withHold
    rfl
  unfold State.commitIfFull
  rw [full]
  split
  · exact h.commit
  · exact h

/-- Every event has related effects on related states. -/
theorem State.sameButStaleHold.eventEffect {s t : State} (h : s.sameButStaleHold t) (i : Instr) :
    (eventEffect i s).sameButStaleHold (eventEffect i t) := by
  cases i with
  | byte v => exact (h.placeByte_countByte v).commitIfFull
  | eos =>
    obtain ⟨same, agree⟩ := h.commit
    exact ⟨congrArg (State.enterStatus · statusEnded) same, agree⟩
  | fault =>
    obtain ⟨same, agree⟩ := h
    exact ⟨congrArg (State.enterStatus · statusFaulted) same, agree⟩
  | reserved data =>
    obtain ⟨same, agree⟩ := h
    exact ⟨congrArg (State.markRefusal · _) same, agree⟩

/-- Related states accept, hold, fault on or refuse an event alike: acceptance reads no `hold` entry. -/
theorem outcomesRelated_exec {s t : State} (h : s.sameButStaleHold t) (i : Instr) :
    outcomesRelated State.sameButStaleHold (exec i s) (exec i t) := by
  have effects := h.eventEffect i
  obtain ⟨k, rfl, -⟩ := h.exists_withHold
  have status : (s.withHold k).status = s.status := rfl
  have ready : (s.withHold k).evReady = s.evReady := rfl
  have mark : (s.withHold k).refusal = s.refusal := rfl
  rw [exec_eq_acceptEvent, exec_eq_acceptEvent]
  unfold acceptEvent
  rw [status, ready, mark]
  split
  · rfl
  · split
    · cases s.refusal with
      | some cause => rfl
      | none => exact effects
    · exact h

/-- A step where the configuration is legal, by the ports (R108). -/
theorem step_legal {s : State} (h : s.Legal) :
    step s =
      if s.sample.rst then .next s.dropInput.resetBlock
      else if s.sample.outReady && s.outValid then .next s.dropInput.acceptOutput
      else if s.sample.evValid then exec (decode s.sample.ev) s.dropInput
      else .next s.dropInput := by
  rw [step, fetch_legal h]
  split_ifs <;> rfl

/-- There is no step where the configuration is illegal (R100). -/
theorem step_illegal {s : State} {c : Condition} {cs : List Condition} (h : configCheck s.params = c :: cs) :
    step s = .refused (.illegalConfiguration (c :: cs)) := by
  simp [step, fetch, h]

/-- Settles O48: the ports and the configuration decide alike what the step does, a reset makes the states equal, and an event
is `outcomesRelated_exec`. -/
theorem staleHoldIsUnobservable : Obligations.StaleHoldIsUnobservable := by
  intro s t h
  obtain ⟨k, rfl, agree⟩ := h.exists_withHold
  have dropped : s.dropInput.sameButStaleHold (s.withHold k).dropInput := ⟨rfl, agree⟩
  have ports : (s.withHold k).sample = s.sample := rfl
  have valid : (s.withHold k).outValid = s.outValid := rfl
  cases hc : configCheck s.params with
  | cons c cs =>
    rw [step_illegal hc, step_illegal (s := s.withHold k) hc]
    rfl
  | nil =>
    rw [step_legal hc, step_legal (s := s.withHold k) hc, ports, valid]
    split_ifs
    · exact State.sameButStaleHold_refl s.dropInput.resetBlock
    · exact (⟨rfl, agree⟩ : s.dropInput.acceptOutput.sameButStaleHold (s.withHold k).dropInput.acceptOutput)
    · exact outcomesRelated_exec dropped _
    · exact dropped

end Sys2Proof.Machine
end

section
/-! PROOFS of the statements on 20_memory.md (R49): the trace grows by committed tuples. -/

namespace Sys2Proof.Machine

/-- From `s` to `t` nothing is emitted: the trace, the decayed peaks (R93) and the output register stay. -/
def State.EmitsNothing (s t : State) : Prop :=
  t.trace = s.trace ∧ t.decayed = s.decayed ∧ t.outTuple = s.outTuple

/-- From `s`, with nothing pending, to `t` one window is committed (R89): its tuple, with the decayed values after the update
(R90), is appended to the trace and pending (R91), and the window starts anew. -/
def State.CommitsOneTuple (s t : State) : Prop :=
  t.trace = s.trace ++ [t.outTuple] ∧ s.outPending = false ∧ t.outPending = true ∧
    t.decayed.left = decayUpdate s.params.alpha s.decayed.left t.outTuple.instL ∧
    t.decayed.right = decayUpdate s.params.alpha s.decayed.right t.outTuple.instR ∧
    t.outTuple.decL = t.decayed.left ∧ t.outTuple.decR = t.decayed.right ∧
    t.inst = { left := 0, right := 0 } ∧ t.byteCount = 0

theorem State.commitsOneTuple_commit {s : State} (free : s.outPending = false) : s.CommitsOneTuple s.commit :=
  ⟨rfl, free, rfl, rfl, rfl, rfl, rfl, rfl, rfl⟩

/-- An event emits nothing or commits one tuple: a byte by whether it fills the window (R65), and of the others only EOS
commits (R66). -/
theorem eventEffect_emitsNothing_or_commits {s : State} (free : s.outPending = false) (i : Instr) :
    s.EmitsNothing (eventEffect i s) ∨ s.CommitsOneTuple (eventEffect i s) := by
  cases i with
  | byte v =>
    rcases (s.placeByte v).countByte.commitIfFull_eq_or with heq | heq
    · exact .inl (by simp [eventEffect, heq, State.EmitsNothing])
    · have committed := State.commitsOneTuple_commit (s := (s.placeByte v).countByte) (by simpa using free)
      exact .inr (by simpa [eventEffect, heq, State.CommitsOneTuple] using committed)
  | eos => exact .inr (State.commitsOneTuple_commit free)
  | fault => exact .inl ⟨rfl, rfl, rfl⟩
  | reserved data => exact .inl ⟨rfl, rfl, rfl⟩

/-- Settles O47: an output acceptance and a wait emit nothing, and an event runs its effect only where nothing is pending. -/
theorem traceGrowsByCommittedTuples : Obligations.TraceGrowsByCommittedTuples := by
  intro s t noReset h
  rcases step_cases h with ⟨reset, -⟩ | ⟨-, -, -, rfl⟩ | ⟨-, -, -, free, -, rfl⟩ | ⟨-, rfl⟩
  · rw [noReset] at reset
    cases reset
  · exact .inl ⟨rfl, rfl, rfl⟩
  · exact eventEffect_emitsNothing_or_commits (s := s.dropInput) free _
  · exact .inl ⟨rfl, rfl, rfl⟩

end Sys2Proof.Machine
end

section
/-! PROOFS of the statements on 30_encoding.md (R52 to R57, R61, R63): decoding and encoding of event words, the output port, and
the pseudo item `group`. -/

namespace Sys2Proof

/-! ### The two fields of an event word (R52) -/

@[simp] theorem kindOf_append (k : BitVec 2) (d : Byte) : kindOf (k ++ d) = k := BitVec.extractLsb'_append_eq_left

@[simp] theorem dataOf_append (k : BitVec 2) (d : Byte) : dataOf (k ++ d) = d := BitVec.extractLsb'_append_eq_right

/-- An event word is KIND above DATA. -/
theorem kindOf_append_dataOf (w : EventWord) : kindOf w ++ dataOf w = w := BitVec.extractLsb'_append_extractLsb'

/-- The four values of KIND (R53). -/
theorem kindOf_cases (w : EventWord) :
    kindOf w = 0b00#2 ∨ kindOf w = 0b01#2 ∨ kindOf w = 0b10#2 ∨ kindOf w = 0b11#2 :=
  (by decide : ∀ k : BitVec 2, k = 0b00#2 ∨ k = 0b01#2 ∨ k = 0b10#2 ∨ k = 0b11#2) (kindOf w)

/-- The mask of every row of R53 keeps KIND and clears DATA. -/
theorem and_kindMask (w : EventWord) : w &&& 0x300#10 = kindOf w ++ 0x00#8 := by
  calc w &&& 0x300#10 = (kindOf w ++ dataOf w) &&& (0b11#2 ++ 0x00#8) := by rw [kindOf_append_dataOf]; rfl
    _ = (kindOf w &&& BitVec.allOnes 2) ++ (dataOf w &&& 0x00#8) := BitVec.and_append
    _ = kindOf w ++ 0x00#8 := by rw [BitVec.and_allOnes, BitVec.and_zero]

theorem toNat_kindOf (w : EventWord) : (kindOf w).toNat = w.toNat / 256 := by
  rw [kindOf, BitVec.extractLsb'_toNat, Nat.shiftRight_eq_div_pow]
  omega

/-! ### Decoding by KIND (R57) -/

theorem decode_of_kind_byte {w : EventWord} (h : kindOf w = 0b00#2) : decode w = .byte (dataOf w) := by simp [decode, h]

theorem decode_of_kind_eos {w : EventWord} (h : kindOf w = 0b01#2) : decode w = .eos := by simp [decode, h]

theorem decode_of_kind_fault {w : EventWord} (h : kindOf w = 0b10#2) : decode w = .fault := by simp [decode, h]

theorem decode_of_kind_reserved {w : EventWord} (h : kindOf w = 0b11#2) : decode w = .reserved (dataOf w) := by
  simp [decode, h]

/-! ### Round trip -/

/-- Every event, RESERVED included, is read back from its word. -/
@[simp] theorem decode_encode (i : Instr) : decode (encode i) = i := by
  cases i with
  | byte v => rw [encode, decode_of_kind_byte (kindOf_append _ _), dataOf_append]
  | eos => exact decode_of_kind_eos (kindOf_append _ _)
  | fault => exact decode_of_kind_fault (kindOf_append _ _)
  | reserved data => rw [encode, decode_of_kind_reserved (kindOf_append _ _), dataOf_append]

/-- Where DATA is an operand, KIND 0b00 and 0b11, the word itself comes back. -/
theorem encode_decode_of_data {w : EventWord} (h : kindOf w = 0b00#2 ∨ kindOf w = 0b11#2) : encode (decode w) = w := by
  rcases h with h | h
  · rw [decode_of_kind_byte h, encode, ← h, kindOf_append_dataOf]
  · rw [decode_of_kind_reserved h, encode, ← h, kindOf_append_dataOf]

/-- Where DATA is ignored, EOS and FAULT, the word comes back with DATA 0x00 (R55). -/
theorem encode_decode_of_no_data {w : EventWord} (h : kindOf w = 0b01#2 ∨ kindOf w = 0b10#2) :
    encode (decode w) = w &&& 0x300#10 := by
  rcases h with h | h
  · rw [decode_of_kind_eos h, encode, and_kindMask, h]
  · rw [decode_of_kind_fault h, encode, and_kindMask, h]

/-- Encoding the decoded event keeps the KIND of the word. -/
@[simp] theorem kindOf_encode_decode (w : EventWord) : kindOf (encode (decode w)) = kindOf w := by
  rcases kindOf_cases w with h | h | h | h
  · rw [encode_decode_of_data (.inl h)]
  · rw [encode_decode_of_no_data (.inl h), and_kindMask, kindOf_append]
  · rw [encode_decode_of_no_data (.inr h), and_kindMask, kindOf_append]
  · rw [encode_decode_of_data (.inr h)]

theorem decode_eq_eos_iff (w : EventWord) : decode w = .eos ↔ kindOf w = 0b01#2 :=
  ⟨fun h => by rw [← kindOf_encode_decode, h, encode, kindOf_append], decode_of_kind_eos⟩

theorem decode_eq_fault_iff (w : EventWord) : decode w = .fault ↔ kindOf w = 0b10#2 :=
  ⟨fun h => by rw [← kindOf_encode_decode, h, encode, kindOf_append], decode_of_kind_fault⟩

/-! ### The statements on event words -/

/-- Settles O1: by the constructors of the event, and by the four values of KIND of the word. -/
theorem decodeAndEncodeAgree : Obligations.DecodeAndEncodeAgree := by
  refine ⟨decode_encode, fun w => ?_⟩
  change encode (decode w) = if kindOf w = 0b01#2 ∨ kindOf w = 0b10#2 then w &&& 0x300#10 else w
  split_ifs with ignored
  · exact encode_decode_of_no_data ignored
  · obtain ⟨notEos, notFault⟩ := not_or.mp ignored
    have carried : kindOf w = 0b00#2 ∨ kindOf w = 0b11#2 := by simpa [notEos, notFault] using kindOf_cases w
    exact encode_decode_of_data carried

/-- Settles O2: the four arms of `decode`. -/
theorem decodingFollowsKind : Obligations.DecodingFollowsKind := fun _ =>
  ⟨decode_of_kind_byte, decode_of_kind_eos, decode_of_kind_fault, decode_of_kind_reserved⟩

/-- Every row of R53 has the mask of KIND. -/
theorem mask_of_mem_encodingTable {r : EncodingRow} (hr : r ∈ encodingTable) : r.mask = 0x300#10 :=
  (by decide : ∀ r ∈ encodingTable, r.mask = 0x300#10) r hr

/-- The word of an event is selected by the row of its mnemonic alone (R53). -/
theorem selects_encode {r : EncodingRow} (hr : r ∈ encodingTable) (i : Instr) :
    r.selects (encode i) = (r.mnemonic == i.mnemonic) := by
  cases i with
  | byte v => exact (Laws.TableRow.byte v).1 r hr
  | eos => exact Laws.TableRow.eos.1 r hr
  | fault => exact Laws.TableRow.fault.1 r hr
  | reserved data => exact (Laws.TableRow.reserved data).1 r hr

/-- Settles O3: a row sees of a word its KIND alone, and so selects it where it selects the word of the decoded event. -/
theorem wordSelectsRowOfItsEvent : Obligations.WordSelectsRowOfItsEvent := by
  refine ⟨rfl, fun w r hr => ?_⟩
  have sameKind : w &&& r.mask = encode (decode w) &&& r.mask := by
    rw [mask_of_mem_encodingTable hr, and_kindMask, and_kindMask, kindOf_encode_decode]
  calc w &&& r.mask = r.pattern ↔ r.selects (encode (decode w)) = true := by
        rw [sameKind, EncodingRow.selects, beq_iff_eq]
    _ ↔ r.mnemonic = (decode w).mnemonic := by rw [selects_encode hr, beq_iff_eq]

/-- Settles O4: KIND is the word divided by 256. -/
theorem eosAndFaultIgnoreData : Obligations.EosAndFaultIgnoreData := by
  intro w
  have kind := toNat_kindOf w
  rw [decode_eq_eos_iff, decode_eq_fault_iff, ← BitVec.toNat_inj, ← BitVec.toNat_inj, kind, BitVec.toNat_ofNat,
    BitVec.toNat_ofNat]
  omega

end Sys2Proof

namespace Sys2Proof.Machine

/-! ### The output port (R61) -/

theorem OutTuple.pack_instL (t : OutTuple) : t.pack.extractLsb' 0 16 = t.instL := by
  rw [OutTuple.pack, BitVec.extractLsb'_append_eq_of_add_le (by decide),
    BitVec.extractLsb'_append_eq_of_add_le (by decide), BitVec.extractLsb'_append_eq_right]

theorem OutTuple.pack_instR (t : OutTuple) : t.pack.extractLsb' 16 16 = t.instR := by
  rw [OutTuple.pack, BitVec.extractLsb'_append_eq_of_add_le (by decide),
    BitVec.extractLsb'_append_eq_of_add_le (by decide), BitVec.extractLsb'_append_eq_left]

theorem OutTuple.pack_decL (t : OutTuple) : t.pack.extractLsb' 32 64 = t.decL := by
  rw [OutTuple.pack, BitVec.extractLsb'_append_eq_of_add_le (by decide), BitVec.extractLsb'_append_eq_left]

theorem OutTuple.pack_decR (t : OutTuple) : t.pack.extractLsb' 96 64 = t.decR := BitVec.extractLsb'_append_eq_left

/-- Settles O39: field by field. -/
theorem outPortPacksTuple : Obligations.OutPortPacksTuple := fun s =>
  ⟨s.outTuple.pack_instL, s.outTuple.pack_instR, s.outTuple.pack_decL, s.outTuple.pack_decR⟩

/-! ### The pseudo item `group` (R63) -/

theorem loByte_eq_ofInt (x : Int) : loByte x = BitVec.ofInt 8 x := by
  apply BitVec.eq_of_toNat_eq
  rw [loByte, BitVec.extractLsb'_toNat, BitVec.toNat_ofInt, BitVec.toNat_ofInt, Nat.shiftRight_zero]
  omega

theorem hiByte_eq_ofInt (x : Int) : hiByte x = BitVec.ofInt 8 (x / 256) := by
  apply BitVec.eq_of_toNat_eq
  rw [hiByte, BitVec.extractLsb'_toNat, BitVec.toNat_ofInt, BitVec.toNat_ofInt, Nat.shiftRight_eq_div_pow]
  omega

/-- The two bytes of a signed 16-bit value decode back to it (R75). -/
theorem decode16_loByte_hiByte {x : Int} (low : -32768 ≤ x) (high : x ≤ 32767) : decode16 (loByte x) (hiByte x) = x := by
  calc decode16 (loByte x) (hiByte x) = (BitVec.ofInt 16 x).toInt :=
        congrArg BitVec.toInt BitVec.extractLsb'_append_extractLsb'
    _ = x := BitVec.toInt_ofInt_eq_self (by decide) low (by omega)

theorem isS16_iff (x : Int) : isS16 x = true ↔ -32768 ≤ x ∧ x ≤ 32767 := by simp [isS16]

theorem TraceItem.assemble_of_wellFormed {i : TraceItem} (h : i.wellFormed = true) : i.assemble = .ok i.expand := if_pos h

/-- Settles O6: the item is well formed, its bytes are those of the two samples, and each sample is decoded back. -/
theorem groupItemDecodesBack : Obligations.GroupItemDecodesBack := by
  intro l r lowL highL lowR highR
  have wellFormed : (TraceItem.group l r).wellFormed = true := by
    simp [TraceItem.wellFormed, isS16_iff, lowL, highL, lowR, highR]
  constructor
  · rw [TraceItem.assemble_of_wellFormed wellFormed, ← loByte_eq_ofInt, ← hiByte_eq_ofInt, ← loByte_eq_ofInt,
      ← hiByte_eq_ofInt]
    rfl
  · rw [groupBytes, groupsOf_cons, groupsOf_short (by decide), decodeGroup, decode16_loByte_hiByte lowL highL,
      decode16_loByte_hiByte lowR highR]

end Sys2Proof.Machine
end

section
/-! PROOFS of the statements on 40_stream_ingest.md (R64 to R71): what the four events do, a full window offered byte by
byte, and that the pacing of the host's actions is invisible. -/

namespace Sys2Proof.Machine

/-! ### The four events (R65 to R68) -/

/-- Every event is held alike (R64). -/
theorem exec_holding {s : State} (h : s.Holding) (i : Instr) : exec i s = .next s := by
  rw [exec_eq_acceptEvent, acceptEvent_holding h]

/-- Settles O19: the effect of EOS is a commit with the status then written. -/
theorem eosCommitsThenEnds : Obligations.EosCommitsThenEnds := fun _ =>
  ⟨fun _ => decode_of_kind_eos (kindOf_append _ _), fun holding => exec_holding holding .eos,
    fun accepting => exec_accepting accepting .eos⟩

/-- Settles O20: the effect of FAULT writes the status alone. -/
theorem faultOnlySetsFaulted : Obligations.FaultOnlySetsFaulted := fun _ =>
  ⟨fun _ => decode_of_kind_fault (kindOf_append _ _), fun holding => exec_holding holding .fault,
    fun accepting => exec_accepting accepting .fault⟩

/-- The recorded word: KIND 0b11 above DATA, here as a bitwise or. -/
theorem reservedWord_eq (d : Byte) : 0x300#10 ||| d.setWidth 10 = 0b11#2 ++ d := by
  rw [BitVec.append_def]
  rfl

/-- Settles O21: with no mark set, the effect of RESERVED records its word. -/
theorem reservedSetsRefusalMark : Obligations.ReservedSetsRefusalMark := by
  intro d s
  refine ⟨decode_encode (.reserved d), fun holding => exec_holding holding _, fun accepting => ?_⟩
  have ⟨_, _, unmarked⟩ := accepting
  rw [exec_accepting accepting, reservedWord_eq]
  simp only [eventEffect, State.markRefusal, unmarked, Option.getD_none]

/-! ### One byte (R65) -/

/-- A byte placed at its group position and counted: all of BYTE but the commit. -/
def State.takeByte (s : State) (v : Byte) : State := (s.placeByte v).countByte

theorem eventEffect_byte (v : Byte) (s : State) : eventEffect (.byte v) s = (s.takeByte v).commitIfFull := rfl

@[simp] theorem State.takeByte_params (s : State) (v : Byte) : (s.takeByte v).params = s.params := s.placeByte_params v
@[simp] theorem State.takeByte_byteCount (s : State) (v : Byte) : (s.takeByte v).byteCount = s.byteCount + 1 := by
  simp [State.takeByte]
@[simp] theorem State.takeByte_status (s : State) (v : Byte) : (s.takeByte v).status = s.status := s.placeByte_status v
@[simp] theorem State.takeByte_outPending (s : State) (v : Byte) : (s.takeByte v).outPending = s.outPending :=
  s.placeByte_outPending v
@[simp] theorem State.takeByte_refusal (s : State) (v : Byte) : (s.takeByte v).refusal = s.refusal := s.placeByte_refusal v

/-- At the group positions 0 to 2 the byte is kept. -/
theorem State.takeByte_early {s : State} {k : Nat} (position : s.byteCount % 4 = k) (early : k < 3) (v : Byte) :
    s.takeByte v = { s with hold := s.hold.write k v, byteCount := s.byteCount + 1 } := by
  subst position
  rw [State.takeByte, State.placeByte_early s v early]
  rfl

/-- At position 3 the byte completes the group, which is folded into the peaks. -/
theorem State.takeByte_last {s : State} (position : s.byteCount % 4 = 3) (v : Byte) :
    s.takeByte v = { s with
      inst := foldGroup s.inst (decodeGroup s.hold.b0 s.hold.b1 s.hold.b2 v), byteCount := s.byteCount + 1 } := by
  rw [State.takeByte, State.placeByte_last s v position]
  rfl

/-- A byte that does not fill the window is placed and counted. -/
theorem exec_byte_not_full {s : State} (accepting : s.Accepting) (v : Byte)
    (notFull : (s.byteCount : Int) + 1 ≠ s.params.windowBytes) : exec (.byte v) s = .next (s.takeByte v) := by
  rw [exec_accepting accepting, eventEffect_byte, State.commitIfFull_not_full _ (by simpa using notFull)]

/-- The byte that fills the window is placed and counted, and the window committed. -/
theorem exec_byte_full {s : State} (accepting : s.Accepting) (v : Byte)
    (full : (s.byteCount : Int) + 1 = s.params.windowBytes) : exec (.byte v) s = .next (s.takeByte v).commit := by
  rw [exec_accepting accepting, eventEffect_byte, State.commitIfFull_full _ (by simpa using full)]

/-- A byte that completes no group does not fill the window, whose length is a multiple of 4 (R7). -/
theorem exec_byte_early {s : State} {k : Nat} (accepting : s.Accepting) (legal : s.Legal)
    (position : s.byteCount % 4 = k) (early : k < 3) (v : Byte) :
    exec (.byte v) s = .next { s with hold := s.hold.write k v, byteCount := s.byteCount + 1 } := by
  obtain ⟨-, multiple, -⟩ := legal.spec
  rw [exec_byte_not_full accepting v (by omega), State.takeByte_early position early]

/-- The new peak in numbers: the maximum of the old one and the magnitude of a decoded sample (R78). -/
theorem maxU16_abs16_decode16 (p : U16) (lo hi : Byte) :
    maxU16 p (abs16 (decode16 lo hi)) = BitVec.ofNat 16 (max p.toNat (decode16 lo hi).natAbs) := by
  obtain ⟨low, high⟩ := decode16_range lo hi
  rw [← abs16_toNat low high, ← maxU16_toNat, BitVec.ofNat_toNat, BitVec.setWidth_eq]

/-- Settles O18: by the group position, and at the last one by whether the byte fills the window. -/
theorem bytePlacesCountsAndCommits : Obligations.BytePlacesCountsAndCommits := by
  intro v s
  refine ⟨decode_encode (.byte v), fun holding => exec_holding holding _, fun accepting legal => ?_⟩
  simp only [← maxU16_abs16_decode16]
  refine ⟨fun position => ?_, fun position => ?_, fun position => ?_, fun position notFull => ?_,
    fun position full => ?_⟩
  · exact exec_byte_early accepting legal position (by decide) v
  · exact exec_byte_early accepting legal position (by decide) v
  · exact exec_byte_early accepting legal position (by decide) v
  · rw [exec_byte_not_full accepting v notFull, State.takeByte_last position]; rfl
  · rw [exec_byte_full accepting v full, State.takeByte_last position]; rfl

/-! ### The bytes of a window (R69, R84) -/

/-- Bytes that complete no group are counted, and some of `hold` is written. -/
theorem foldl_takeByte_early (window : List Byte) (s : State) (early : s.byteCount % 4 + window.length ≤ 3) :
    ∃ h : Hold, window.foldl State.takeByte s = { s with byteCount := s.byteCount + window.length, hold := h } := by
  induction window generalizing s with
  | nil => exact ⟨s.hold, rfl⟩
  | cons v rest ih =>
    rw [List.length_cons] at early
    obtain ⟨h, hrest⟩ := ih (s.takeByte v) (by rw [State.takeByte_byteCount]; omega)
    refine ⟨h, ?_⟩
    rw [List.foldl_cons, hrest, State.takeByte_early rfl (by omega), List.length_cons, Nat.add_right_comm, Nat.add_assoc]

/-- Four bytes from the start of a group are its two samples (R76), and fold into the peaks as these. -/
theorem takeByte_group {s : State} (start : s.byteCount % 4 = 0) (b0 b1 b2 b3 : Byte) :
    (((s.takeByte b0).takeByte b1).takeByte b2).takeByte b3 =
      { s with
        inst := foldGroup s.inst (decodeGroup b0 b1 b2 b3)
        byteCount := s.byteCount + 4
        hold := { b0 := b0, b1 := b1, b2 := b2 } } := by
  have second : (s.takeByte b0).byteCount % 4 = 1 := by rw [State.takeByte_byteCount]; omega
  have third : ((s.takeByte b0).takeByte b1).byteCount % 4 = 2 := by rw [State.takeByte_byteCount]; omega
  have fourth : (((s.takeByte b0).takeByte b1).takeByte b2).byteCount % 4 = 3 := by
    rw [State.takeByte_byteCount]; omega
  rw [State.takeByte_last fourth, State.takeByte_early third (by decide), State.takeByte_early second (by decide),
    State.takeByte_early start (by decide)]
  rfl

/-- From the start of a group, bytes are folded into the peaks group by group, and counted (R83, R84). -/
theorem foldl_takeByte (window : List Byte) (s : State) (start : s.byteCount % 4 = 0) :
    ∃ h : Hold, window.foldl State.takeByte s =
      { s with
        inst := (groupsOf window).foldl foldGroup s.inst
        byteCount := s.byteCount + window.length
        hold := h } := by
  induction window using groupsOf.induct generalizing s with
  | case1 b0 b1 b2 b3 rest ih =>
    have group := takeByte_group start b0 b1 b2 b3
    obtain ⟨h, hrest⟩ := ih ((((s.takeByte b0).takeByte b1).takeByte b2).takeByte b3)
      (by simp only [State.takeByte_byteCount]; omega)
    have count : s.byteCount + 4 + rest.length = s.byteCount + (b0 :: b1 :: b2 :: b3 :: rest).length := by
      simp only [List.length_cons]; omega
    refine ⟨h, ?_⟩
    rw [List.foldl_cons, List.foldl_cons, List.foldl_cons, List.foldl_cons, hrest, group, groupsOf_cons, List.foldl_cons,
      ← count]
  | case2 window short =>
    have few : window.length < 4 := by
      match window, short with
      | [], _ | [_], _ | [_, _], _ | [_, _, _], _ => simp
      | b0 :: b1 :: b2 :: b3 :: rest, short => exact absurd rfl (short b0 b1 b2 b3 rest)
    obtain ⟨h, hwindow⟩ := foldl_takeByte_early window s (by omega)
    exact ⟨h, by rw [hwindow, groupsOf_short few]; rfl⟩

/-! ### The host's later input (R29, R71) -/

/-- The state with other coming port samples. -/
def State.withInput (s : State) (input : List HostInput) : State := { s with input := input }

/-- An outcome with other port samples after it. -/
def outcomeWithInput (input : List HostInput) :
    Host.Outcome State Fault Refusal → Host.Outcome State Fault Refusal
  | .next t => .next (t.withInput input)
  | .fault r => .fault r
  | .refused r => .refused r

theorem State.commitIfFull_withInput (s : State) (input : List HostInput) :
    (s.withInput input).commitIfFull = s.commitIfFull.withInput input := by
  have full : (s.withInput input).windowFull = s.windowFull := rfl
  unfold State.commitIfFull
  rw [full]
  split_ifs <;> rfl

theorem State.takeByte_withInput (s : State) (v : Byte) (input : List HostInput) :
    (s.withInput input).takeByte v = (s.takeByte v).withInput input := by
  by_cases early : s.byteCount % 4 < 3
  · rw [State.takeByte_early rfl early, State.takeByte_early (s := s.withInput input) rfl early]
    rfl
  · have last : s.byteCount % 4 = 3 := by omega
    rw [State.takeByte_last last, State.takeByte_last (s := s.withInput input) last]
    rfl

/-- No event reads or writes the host's coming samples. -/
theorem eventEffect_withInput (i : Instr) (s : State) (input : List HostInput) :
    eventEffect i (s.withInput input) = (eventEffect i s).withInput input := by
  cases i with
  | byte v => rw [eventEffect_byte, State.takeByte_withInput, State.commitIfFull_withInput, eventEffect_byte]
  | _ => rfl

/-- Acceptance does not look at them either, so that an event has one outcome whatever the host does later. -/
theorem exec_withInput (i : Instr) (s : State) (input : List HostInput) :
    exec i (s.withInput input) = outcomeWithInput input (exec i s) := by
  have status : (s.withInput input).status = s.status := rfl
  have ready : (s.withInput input).evReady = s.evReady := rfl
  have mark : (s.withInput input).refusal = s.refusal := rfl
  rw [exec_eq_acceptEvent, exec_eq_acceptEvent]
  unfold acceptEvent
  rw [status, ready, mark, eventEffect_withInput]
  split_ifs
  · rfl
  · cases s.refusal <;> rfl
  · rfl

/-- A step uses up its own sample and does not look at the later ones. -/
theorem step_withInput_cons {s : State} (legal : s.Legal) (p : HostInput) (later : List HostInput) :
    step (s.withInput (p :: later)) = outcomeWithInput later (step (s.withInput [p])) := by
  have dropped : (s.withInput (p :: later)).dropInput = (s.withInput [p]).dropInput.withInput later := rfl
  have ports : ∀ input : List HostInput, (s.withInput (p :: input)).sample = p := fun _ => rfl
  have valid : ∀ input : List HostInput, (s.withInput input).outValid = s.outValid := fun _ => rfl
  rw [step_legal (s := s.withInput (p :: later)) legal, step_legal (s := s.withInput [p]) legal, dropped, exec_withInput]
  simp only [ports, valid]
  split_ifs <;> rfl

/-! ### Runs -/

/-- The rest of a run, after the outcome of its first step. -/
def runFrom (M : Host.Core) (k : Nat) :
    Host.Outcome M.State M.Fault M.Refusal → Host.Outcome M.State M.Fault M.Refusal
  | .next t => M.run k t
  | .fault r => .fault r
  | .refused r => .refused r

theorem run_succ (M : Host.Core) (k : Nat) (s : M.State) : M.run (k + 1) s = runFrom M k (M.step s) := rfl

/-- A run over a schedule goes on from the next state of its first step, over the rest of the schedule. -/
theorem run_withInput_cons {s : State} (legal : s.Legal) (p : HostInput) (later : List HostInput) (k : Nat) :
    Host.Core.run core (k + 1) (s.withInput (p :: later)) =
      runFrom core k (outcomeWithInput later (step (s.withInput [p]))) :=
  (run_succ core k _).trans (congrArg (runFrom core k) (step_withInput_cons legal p later))

theorem step_idle {s : State} (legal : s.Legal) : step (s.withInput [.idle]) = .next (s.withInput []) := by
  rw [step_legal (s := s.withInput [.idle]) legal]
  rfl

/-- The step of an offered event that is accepted (R108, R64). -/
theorem step_offer {s : State} (accepting : s.Accepting) (legal : s.Legal) (i : Instr) :
    step (s.withInput [.offer (encode i)]) = .next ((eventEffect i s).withInput []) := by
  have offered : step (s.withInput [.offer (encode i)]) = exec (decode (encode i)) (s.withInput []) :=
    stepRunsOfferedEvent _ legal rfl rfl (.inl rfl)
  rw [offered, decode_encode, exec_accepting (s := s.withInput []) accepting, eventEffect_withInput]

/-- Offering bytes that do not exceed the window, one a step, places and counts them all, and commits the window if they fill
it. -/
theorem run_offerBytes (bytes : List Byte) (later : List HostInput) {s : State} (accepting : s.Accepting) (legal : s.Legal)
    (notFull : (s.byteCount : Int) < s.params.windowBytes)
    (fits : (s.byteCount : Int) + bytes.length ≤ s.params.windowBytes) :
    Host.Core.run core bytes.length (s.withInput (offerBytes bytes ++ later)) =
      .next ((bytes.foldl State.takeByte s).commitIfFull.withInput later) := by
  induction bytes generalizing s with
  | nil => rw [List.foldl_nil, State.commitIfFull_not_full s (by omega)]; rfl
  | cons v rest ih =>
    have first : Host.Core.run core (rest.length + 1) (s.withInput (offerBytes (v :: rest) ++ later)) =
        Host.Core.run core rest.length ((s.takeByte v).commitIfFull.withInput (offerBytes rest ++ later)) := by
      refine (run_withInput_cons legal _ _ _).trans ?_
      rw [step_offer accepting legal]
      rfl
    have count : ((s.takeByte v).byteCount : Int) = s.byteCount + 1 := by simp
    rw [List.length_cons, Nat.cast_add, Nat.cast_one] at fits
    rw [List.length_cons, first, List.foldl_cons]
    by_cases full : (s.byteCount : Int) + 1 = s.params.windowBytes
    · obtain rfl : rest = [] := List.length_eq_zero_iff.mp (by omega)
      rfl
    · rw [State.commitIfFull_not_full _ (by rwa [count, State.takeByte_params])]
      refine ih ?_ ?_ ?_ ?_
      · simpa [State.Accepting] using accepting
      · simpa [State.Legal] using legal
      · rw [count, State.takeByte_params]; omega
      · rw [count, State.takeByte_params]; omega

/-- Settles O29: the bytes are folded into the peaks as the reference function does, and the commit reads those. -/
theorem fullWindowEmitsReferenceTuple : Obligations.FullWindowEmitsReferenceTuple := by
  intro window rest s accepting legal empty silent full offered
  obtain ⟨positive, -, -⟩ := legal.spec
  obtain ⟨h, hwindow⟩ := foldl_takeByte window s (by rw [empty])
  have run := run_offerBytes window rest accepting legal (by omega) (by omega)
  rw [hwindow, silent, empty, State.commitIfFull_full _ (by simpa using full), ← offered] at run
  refine ⟨h, run.trans ?_⟩
  rw [silent, empty]
  rfl

/-! ### Idle samples (R71, R112) -/

/-- Settles O49: an idle step leaves the state as it is, and any other sample acts the same whatever comes after it. -/
theorem pacingIsInvisible : Obligations.PacingIsInvisible := by
  intro s schedule legal
  show Host.Core.run core _ (s.withInput schedule) = Host.Core.run core _ (s.withInput _)
  induction schedule generalizing s with
  | nil => rfl
  | cons p later ih =>
    rw [List.length_cons, run_withInput_cons legal]
    by_cases idle : p = .idle
    · rw [List.filter_cons_of_neg (by simp [idle]), idle, step_idle legal]
      exact ih s legal
    · rw [List.filter_cons_of_pos (by simpa using idle), List.length_cons, run_withInput_cons legal]
      cases first : step (s.withInput [p]) with
      | next t =>
        have kept : t.params = s.params := parametersNeverChange (s.withInput [p]) t first
        exact ih t (by rwa [State.Legal, kept])
      | fault r => rfl
      | refused r => rfl

end Sys2Proof.Machine
end

section
/-! PROOFS of the statements on 41_peak_detect.md (R75 to R84): samples and magnitudes in numbers, one lane apart from the
other, and the window streamed byte by byte against the reference window function. -/

namespace Sys2Proof.Machine

/-! ### Samples and magnitudes (R75, R77) -/

/-- The two bytes of a sample as one unsigned word, the high byte at bits 15:8 (R75). -/
theorem toNat_append_bytes (hi lo : Byte) : (hi ++ lo).toNat = 256 * hi.toNat + lo.toNat := by
  rw [BitVec.toNat_append, ← Nat.shiftLeft_add_eq_or_of_lt lo.isLt, Nat.shiftLeft_eq, Nat.mul_comm]

/-- Settles O24: the word of the two bytes, below 32768 exactly where the high byte is below 128, in two's complement. -/
theorem decode16IsLittleEndian : Obligations.Decode16IsLittleEndian := by
  refine fun lo hi => ⟨?_, decode16_range lo hi⟩
  have := lo.isLt
  rw [decode16, BitVec.toInt_eq_toNat_cond, toNat_append_bytes]
  split <;> split <;> omega

/-- Settles O25: the magnitude fits u16, and two's complement negation of a 16-bit pattern is 65536 less the pattern. -/
theorem abs16IsExactMagnitude : Obligations.Abs16IsExactMagnitude := by
  refine ⟨fun x low high => ?_, fun p => ?_⟩
  · rw [abs16_toNat low high, Int.natCast_natAbs]
  · have low : -32768 ≤ p.toInt := BitVec.le_toInt p
    have high : p.toInt < 32768 := BitVec.toInt_lt
    have := p.isLt
    rw [abs16_toNat low (by omega), BitVec.toInt_eq_msb_cond]
    cases p.msb with
    | false => simp
    | true => rw [if_pos rfl, if_neg (by decide)]; omega

/-! ### Accumulation and the two lanes (R78, R82) -/

/-- The new peak in numbers, for every sample of the range. -/
theorem maxU16_abs16 (peak : U16) {x : Int} (low : -32768 ≤ x) (high : x ≤ 32767) :
    maxU16 peak (abs16 x) = BitVec.ofNat 16 (max peak.toNat x.natAbs) := by
  rw [← abs16_toNat low high, ← maxU16_toNat, BitVec.ofNat_toNat, BitVec.setWidth_eq]

/-- Settles O26: each channel's accumulation replaces that channel's peak by the maximum. -/
theorem accumulateTakesMaximum : Obligations.AccumulateTakesMaximum := by
  intro s x low high
  rw [← maxU16_abs16 _ low high, ← maxU16_abs16 _ low high]
  exact ⟨rfl, rfl⟩

/-- Settles O27: a group's fold and a commit's decay read, in each lane, that lane's values alone. -/
theorem lanesAreIndependent : Obligations.LanesAreIndependent := by
  intro s t b0 b1 b2 b3 c0 c1 c2 c3
  refine ⟨fun peak => ?_, fun peak => ?_, fun alpha peak decayed => ?_, fun alpha peak decayed => ?_⟩
  · simp only [State.groupDecodeAccumulate_inst, foldGroup, decodeGroup, peak]
  · simp only [State.groupDecodeAccumulate_inst, foldGroup, decodeGroup, peak]
  · simp only [State.commit_decayed, State.updateDecay_decayed, alpha, peak, decayed]
  · simp only [State.commit_decayed, State.updateDecay_decayed, alpha, peak, decayed]

/-! ### Streaming against the reference (R83, R84) -/

/-- Accepted bytes that leave the window short of full are placed and counted one after the other, and nothing is
committed. -/
theorem feedBytes_of_short (window : List Byte) {s : State} (accepting : s.Accepting)
    (short : (s.byteCount : Int) + window.length < s.params.windowBytes) :
    feedBytes window s = .next (window.foldl State.takeByte s) := by
  induction window generalizing s with
  | nil => rfl
  | cons v rest ih =>
    rw [List.length_cons, Nat.cast_add, Nat.cast_one] at short
    rw [feedBytes, exec_byte_not_full accepting v (by omega), List.foldl_cons]
    refine ih ?_ ?_
    · simpa [State.Accepting] using accepting
    · rw [State.takeByte_byteCount, State.takeByte_params, Nat.cast_add, Nat.cast_one]; omega

/-- Settles O28: the bytes are all placed and counted, and from the start of a window with silent peaks that is the reference
function's fold over their complete groups. -/
theorem streamingMatchesReference : Obligations.StreamingMatchesReference := by
  intro window s accepting _ empty silent short
  obtain ⟨h, hwindow⟩ := foldl_takeByte window s (by rw [empty])
  refine ⟨h, ?_⟩
  rw [feedBytes_of_short window accepting (by rw [empty]; omega), hwindow, silent, empty, Nat.zero_add]
  rfl

end Sys2Proof.Machine
end

section
/-! PROOFS of the statements on 42_decay_filter.md (R85 to R98): output acceptance, the exact instant peak, the laws of the
decay filter (range, bound, fixed points), the first update, and the decay in silence. -/

namespace Sys2Proof.Machine

/-- Settles O10: the acceptance comes before an offered event, and without a pending tuple the ports decide without
`out_ready`. -/
theorem outputAcceptanceClearsPending : Obligations.OutputAcceptanceClearsPending := by
  intro s legal noReset ready
  refine ⟨fun pending => ?_, fun free => ?_⟩
  · have tuple : s.outValid = true := pending
    rw [step_legal legal, noReset, ready, tuple]
    rfl
  · have noTuple : s.outValid = false := free
    have notReady := step_legal (s := s.withInput ({ s.sample with outReady := false } :: s.input.tail)) legal
    refine (step_legal legal).trans (Eq.trans ?_ notReady.symm)
    rw [noTuple, Bool.and_false]
    rfl

/-! ### Patterns of values in range -/

namespace Binary64

/-- A value's own magnitude rounds to the value. -/
theorem roundMag_magOf {p : Nat} (hp : p ≤ infPattern) : roundMag 0 (magOf p) = p := by
  simpa using roundMag_exact 0 hp

/-- A value below 2^53 units has its pattern there too. -/
theorem two_pow_53_le_of_magOf {p : Nat} (h : 2 ^ 53 ≤ magOf p) : 2 ^ 53 ≤ p := by
  by_contra small
  rw [magOf_small (by omega)] at h
  exact small h

/-- From the second binade on, a value is twice the one a binade below. -/
theorem magOf_double {p : Nat} (h : 2 ^ 53 ≤ p) : magOf p = 2 * magOf (p - 2 ^ 52) := by
  obtain ⟨t, q, hp, low, high⟩ : ∃ t q, p = (t + 1) * 2 ^ 52 + q ∧ 2 ^ 52 ≤ q ∧ q ≤ 2 ^ 53 :=
    ⟨p / 2 ^ 52 - 2, 2 ^ 52 + p % 2 ^ 52, by omega, by omega, by omega⟩
  have hlower : p - 2 ^ 52 = t * 2 ^ 52 + q := by omega
  rw [hlower, hp, magOf_sum high (.inr low), magOf_sum high (.inr low), pow_succ]
  ring

/-- From the first binade on, neighbouring values differ by a power of two, 2^52 times which is at most the lower one. -/
theorem magOf_succ_eq {p : Nat} (h : 2 ^ 52 ≤ p) :
    ∃ t, magOf (p + 1) = magOf p + 2 ^ t ∧ 2 ^ 52 * 2 ^ t ≤ magOf p ∧ t = p / 2 ^ 52 - 1 := by
  obtain ⟨t, q, hp, low, high, ht⟩ :
      ∃ t q, p = t * 2 ^ 52 + q ∧ 2 ^ 52 ≤ q ∧ q < 2 ^ 53 ∧ t = p / 2 ^ 52 - 1 :=
    ⟨p / 2 ^ 52 - 1, 2 ^ 52 + p % 2 ^ 52, by omega, by omega, by omega, rfl⟩
  have value : magOf p = q * 2 ^ t := by rw [hp, magOf_sum high.le (.inr low)]
  refine ⟨t, ?_, ?_, ht⟩
  · rw [value, hp, add_assoc, magOf_sum (q := q + 1) high (.inr (by omega)), add_mul, one_mul]
  · rw [value]
    exact Nat.mul_le_mul_right _ low

theorem two_pow_mul_two_pow_mul {t k s : Nat} (h : t + k = s) (n : Nat) : 2 ^ t * (2 ^ k * n) = n * 2 ^ s := by
  rw [← h]; ring

/-- A falling decayed peak does not pass the instant peak, even before the last rounding of R86. Within a factor of two the
difference is exact (Sterbenz); above that, the product is at most half the decayed peak, which is a value where the instant
peak is not zero. -/
theorem magOf_add_product_le_of_fall {a d p n : Nat} (ha : a ≤ 0x3FE0000000000000) (hd : d < infPattern)
    (hv : magOf p = n * 2 ^ 1074) (hle : magOf p ≤ magOf d) :
    magOf p + magOf (roundMag 1074 (magOf a * magOf (roundMag 0 (magOf d - magOf p)))) ≤ magOf d := by
  have diff : roundMag 0 (magOf d - magOf p) ≤ d := roundMag_le hd.le (by simp)
  rcases Nat.le_total (magOf d) (2 * magOf p) with near | far
  · obtain ⟨r, hr, hdiff⟩ := sub_representable (magOf_le_iff.mp hle) hd near
    have exact_diff : roundMag 0 (magOf d - magOf p) = r := by
      simpa [hdiff] using roundMag_exact 0 hr.le
    have product := magOf_le_iff.mpr (roundMag_alpha_mul_le (x := r) ha hr.le (by omega))
    rw [exact_diff]
    omega
  · rcases Nat.eq_zero_or_pos n with rfl | positive
    · have halved := (magOf_le_iff.mpr diff).trans (Nat.le_mul_of_pos_left (magOf d) two_pos)
      have product := magOf_le_iff.mpr (roundMag_alpha_mul_le ha hd.le halved)
      have silent : magOf p = 0 := by rw [hv, zero_mul]
      omega
    · have unit : 2 ^ 53 ≤ magOf p := by
        rw [hv]
        exact (pow_le_pow_right₀ one_le_two (by norm_num)).trans (Nat.le_mul_of_pos_left _ positive)
      have double := magOf_double (two_pow_53_le_of_magOf (unit.trans hle))
      have product := magOf_le_iff.mpr
        (roundMag_alpha_mul_le ha (by omega) ((magOf_le_iff.mpr diff).trans_eq double))
      omega

end Binary64

open Binary64

/-- The instant peak by its pattern (R85). -/
theorem peakToF64_pattern (peak : U16) :
    (peakToF64 peak).toNat < infPattern ∧ peakToF64 peak = withSign false (peakToF64 peak).toNat ∧
      magOf (peakToF64 peak).toNat = peak.toNat * 2 ^ 1074 := by
  obtain ⟨p, hp, heq, hv⟩ := peakToF64_spec peak
  have hpattern : (peakToF64 peak).toNat = p := by
    rw [heq, toNat_withSign (hp.trans infPattern_lt)]
    simp
  rw [hpattern]
  exact ⟨hp, heq, hv⟩

/-- An instant peak in range is a decayed peak in range. -/
theorem peakToF64_inRange {peak : U16} (h : peak.toNat ≤ 32768) : decayInRange (peakToF64 peak) = true := by
  obtain ⟨-, -, hv⟩ := peakToF64_pattern peak
  rw [decayInRange_iff, ← magOf_le_iff, hv, (by decide +kernel : magOf peakMaxPattern = 32768 * 2 ^ 1074)]
  exact Nat.mul_le_mul_right _ h

/-- A value in range is no NaN, and its place in the numerical order is its pattern. -/
theorem not_nan_orderKey_of_inRange {x : F64} (h : decayInRange x = true) :
    isNaN x = false ∧ orderKey x = (x.toNat : Int) := by
  have hx := (decayInRange_iff x).mp h
  obtain ⟨finite, positive, -⟩ := pos_pattern hx (by decide)
  obtain ⟨notNaN, -⟩ := not_nan_inf_of_finite finite
  unfold peakMaxPattern at hx
  refine ⟨notNaN, ?_⟩
  rw [orderKey, positive, Nat.mod_eq_of_lt (by omega)]
  rfl

theorem le_iff_of_inRange {x y : F64} (hx : decayInRange x = true) (hy : decayInRange y = true) :
    le x y = true ↔ x.toNat ≤ y.toNat := by
  obtain ⟨nx, kx⟩ := not_nan_orderKey_of_inRange hx
  obtain ⟨ny, ky⟩ := not_nan_orderKey_of_inRange hy
  simp [le, nx, ny, kx, ky]

theorem lt_iff_of_inRange {x y : F64} (hx : decayInRange x = true) (hy : decayInRange y = true) :
    lt x y = true ↔ x.toNat < y.toNat := by
  obtain ⟨nx, kx⟩ := not_nan_orderKey_of_inRange hx
  obtain ⟨ny, ky⟩ := not_nan_orderKey_of_inRange hy
  simp [lt, nx, ny, kx, ky]

/-- Settles O30: integers up to 2^53 convert exactly. -/
theorem peakConversionIsExact : Obligations.PeakConversionIsExact := by
  refine ⟨rfl, by decide +kernel, by decide +kernel, fun peak => ?_⟩
  obtain ⟨finite, value, -⟩ := ofInt_exact (n := (peak.toNat : Int)) (by have := peak.isLt; omega)
  exact ⟨finite, value⟩

/-! ### The laws of the filter (R94, R95) -/

/-- R95(a), on patterns: what is added is not negative, and the exact sum is at most the instant peak. -/
theorem decayUpdate_toNat_of_rise {alpha d : F64} {peak : U16} (legal : checkAlpha alpha = [])
    (hd : decayInRange d = true) (rises : d.toNat ≤ (peakToF64 peak).toNat) :
    d.toNat ≤ (decayUpdate alpha d peak).toNat ∧
      (decayUpdate alpha d peak).toNat ≤ (peakToF64 peak).toNat := by
  obtain ⟨-, ha⟩ := (checkAlpha_nil_iff alpha).mp legal
  obtain ⟨hp, hpattern, hv⟩ := peakToF64_pattern peak
  have hle := magOf_le_iff.mpr rises
  have bound := magOf_add_product_le ha hp (by omega : peak.toNat < 2 ^ 53) hv hle
  rw [decayUpdate_rise ha ((decayInRange_iff d).mp hd) hp hpattern hle, toNat_withSign (roundMag_lt _ _),
    if_neg Bool.false_ne_true, zero_add]
  exact ⟨le_roundMag (rises.trans hp.le) (by rw [pow_zero, mul_one]; exact Nat.le_add_right _ _),
    roundMag_le hp.le (by rwa [pow_zero, mul_one])⟩

/-- The update where the decayed peak is above the instant peak, on patterns: the product does not exceed the decayed peak. -/
theorem decayUpdate_toNat_eq_of_fall {alpha d : F64} {peak : U16} (legal : checkAlpha alpha = [])
    (hd : decayInRange d = true) (falls : (peakToF64 peak).toNat < d.toNat) :
    (decayUpdate alpha d peak).toNat = roundMag 0 (magOf d.toNat -
      magOf (roundMag 1074 (magOf alpha.toNat * magOf (roundMag 0 (magOf d.toNat - magOf (peakToF64 peak).toNat))))) := by
  obtain ⟨-, ha⟩ := (checkAlpha_nil_iff alpha).mp legal
  obtain ⟨hp, hpattern, hv⟩ := peakToF64_pattern peak
  have hdmax := (decayInRange_iff d).mp hd
  have hlt := magOf_lt_iff.mpr falls
  have bound := magOf_add_product_le_of_fall ha (hdmax.trans_lt (by decide)) hv hlt.le
  rw [decayUpdate_fall ha hdmax hp hpattern hlt (magOf_le_iff.mp (by omega)), toNat_withSign (roundMag_lt _ _),
    if_neg Bool.false_ne_true, zero_add]

/-- R95(b), on patterns: what is taken away is not negative, and the exact difference is at least the instant peak. -/
theorem decayUpdate_toNat_of_fall {alpha d : F64} {peak : U16} (legal : checkAlpha alpha = [])
    (hd : decayInRange d = true) (falls : (peakToF64 peak).toNat < d.toNat) :
    (peakToF64 peak).toNat ≤ (decayUpdate alpha d peak).toNat ∧
      (decayUpdate alpha d peak).toNat ≤ d.toNat := by
  obtain ⟨-, ha⟩ := (checkAlpha_nil_iff alpha).mp legal
  obtain ⟨hp, -, hv⟩ := peakToF64_pattern peak
  have hdinf : d.toNat < infPattern := ((decayInRange_iff d).mp hd).trans_lt (by decide)
  have bound := magOf_add_product_le_of_fall ha hdinf hv (magOf_le_iff.mpr falls.le)
  rw [decayUpdate_toNat_eq_of_fall legal hd falls]
  exact ⟨le_roundMag hp.le (by rw [pow_zero, mul_one]; omega),
    roundMag_le hdinf.le (by rw [pow_zero, mul_one]; exact Nat.sub_le _ _)⟩

/-- The instant peak is a fixed point (R87(a)): a rise stops at it. -/
theorem decayUpdate_peakToF64 {alpha : F64} {peak : U16} (legal : checkAlpha alpha = []) (hpeak : peak.toNat ≤ 32768) :
    decayUpdate alpha (peakToF64 peak) peak = peakToF64 peak := by
  obtain ⟨low, high⟩ := decayUpdate_toNat_of_rise legal (peakToF64_inRange hpeak) le_rfl
  exact BitVec.eq_of_toNat_eq (le_antisymm high low)

/-- Settles O33: `decayUpdate_inRange`. -/
theorem decayStaysInRange : Obligations.DecayStaysInRange :=
  fun _ _ _ legal hd hpeak => decayUpdate_inRange legal hd hpeak

/-- Settles O36: `decayUpdate_peakToF64`. -/
theorem instantPeakIsFixedPoint : Obligations.InstantPeakIsFixedPoint :=
  fun _ _ legal hpeak => decayUpdate_peakToF64 legal hpeak

/-- Settles O34: a rise and a fall, on patterns; a decayed peak at the instant peak stays there. -/
theorem decayMovesTowardPeak : Obligations.DecayMovesTowardPeak := by
  intro alpha d peak legal hd hpeak p d'
  have hp : decayInRange p = true := peakToF64_inRange hpeak
  have hd' : decayInRange d' = true := decayUpdate_inRange legal hd hpeak
  rw [le_iff_of_inRange hd hp, le_iff_of_inRange hp hd, le_iff_of_inRange hd hd', le_iff_of_inRange hd' hp,
    le_iff_of_inRange hp hd', le_iff_of_inRange hd' hd]
  refine ⟨decayUpdate_toNat_of_rise legal hd, fun above => ?_⟩
  rcases above.eq_or_lt with same | falls
  · have fixed : d' = p := by
      show decayUpdate alpha d peak = p
      rw [← BitVec.eq_of_toNat_eq same]
      exact decayUpdate_peakToF64 legal hpeak
    rw [fixed]
    exact ⟨le_rfl, above⟩
  · exact decayUpdate_toNat_of_fall legal hd falls

/-- A function that, on the values it keeps, moves a value only to one of smaller measure reaches a fixed point. -/
theorem exists_iterate_fixed {α : Type} {f : α → α} {inv : α → Prop} (measure : α → Nat)
    (keeps : ∀ x, inv x → inv (f x)) (progress : ∀ x, inv x → f x = x ∨ measure (f x) < measure x)
    (x : α) (hx : inv x) : ∃ n, f (f^[n] x) = f^[n] x := by
  rcases progress x hx with fixed | smaller
  · exact ⟨0, fixed⟩
  · obtain ⟨n, hn⟩ := exists_iterate_fixed measure keeps progress (f x) (keeps x hx)
    exact ⟨n + 1, hn⟩
termination_by measure x

/-- How far, in patterns, a decayed peak stands from the instant peak. -/
def peakDistance (peak : U16) (d : F64) : Nat := Nat.dist d.toNat (peakToF64 peak).toNat

/-- An update that changes the decayed peak brings it closer to the instant peak (R95). -/
theorem decayUpdate_eq_or_closer {alpha d : F64} {peak : U16} (legal : checkAlpha alpha = [])
    (hd : decayInRange d = true) :
    decayUpdate alpha d peak = d ∨ peakDistance peak (decayUpdate alpha d peak) < peakDistance peak d := by
  rw [← BitVec.toNat_inj, peakDistance, peakDistance, Nat.dist, Nat.dist]
  rcases le_or_gt d.toNat (peakToF64 peak).toNat with rises | falls
  · obtain ⟨low, high⟩ := decayUpdate_toNat_of_rise legal hd rises
    omega
  · obtain ⟨low, high⟩ := decayUpdate_toNat_of_fall legal hd falls
    omega

/-- Settles O35: each window keeps the side (R95), and one that changes the decayed peak brings it closer to the instant
peak. -/
theorem constantPeakReachesFixedPoint : Obligations.ConstantPeakReachesFixedPoint := by
  intro alpha d peak legal hd hpeak after
  have next : ∀ n, after (n + 1) = decayUpdate alpha (after n) peak := fun n => Function.iterate_succ_apply' _ _ _
  have inRange : ∀ n, decayInRange (after n) = true := by
    intro n
    induction n with
    | zero => exact hd
    | succ n ih => rw [next]; exact decayUpdate_inRange legal ih hpeak
  refine ⟨fun below n => ?_, fun above n => ?_, ?_⟩
  · induction n with
    | zero => exact below
    | succ n ih => rw [next]; exact ((decayMovesTowardPeak alpha _ peak legal (inRange n) hpeak).1 ih).2
  · induction n with
    | zero => exact above
    | succ n ih => rw [next]; exact ((decayMovesTowardPeak alpha _ peak legal (inRange n) hpeak).2 ih).1
  · obtain ⟨n, fixed⟩ := exists_iterate_fixed (inv := fun x => decayInRange x = true) (peakDistance peak)
      (fun _ hx => decayUpdate_inRange legal hx hpeak) (fun _ hx => decayUpdate_eq_or_closer legal hx) d hd
    refine ⟨n, fun m hm => ?_⟩
    induction m, hm using Nat.le_induction with
    | base => rfl
    | succ m _ ih => rw [next, ih]; exact fixed

/-! ### The first update and silence (R96, R98) -/

/-- Settles O37: the difference from +0.0 is the instant peak, and the sum with +0.0 is the product. -/
theorem firstUpdateIsAlphaTimesPeak : Obligations.FirstUpdateIsAlphaTimesPeak := by
  refine ⟨fun alpha peak legal hpeak => ?_, by decide +kernel⟩
  obtain ⟨-, ha⟩ := (checkAlpha_nil_iff alpha).mp legal
  obtain ⟨hp, hpattern, -⟩ := peakToF64_pattern peak
  have hp63 := hp.trans infPattern_lt
  obtain ⟨alphaFinite, alphaSign, alphaMag, -⟩ := pos_pattern ha (by decide)
  have product : mul alpha (peakToF64 peak) =
      withSign false (roundMag 1074 (magOf alpha.toNat * magOf (peakToF64 peak).toNat)) := by
    rw [hpattern, toNat_withSign hp63, mul_finite alphaFinite (isFinite_withSign hp), mulFinite, alphaSign, alphaMag,
      sign_withSign hp63, magUnits_withSign hp63]
    simp
  have zero : magOf (0 : F64).toNat = 0 := rfl
  rw [product, decayUpdate_rise ha (by decide) hp hpattern (Nat.zero_le _), zero, Nat.sub_zero, Nat.zero_add,
    roundMag_magOf hp.le, roundMag_magOf (roundMag_le_inf _ _)]

/-- What this hardware's ALPHA takes away in silence: ALPHA times the decayed peak, rounded. -/
def silenceDrop (d : Nat) : Nat := roundMag 1074 (magOf Params.alphaDefault.toNat * magOf d)

theorem alphaDefault_legal : checkAlpha Params.alphaDefault = [] := by decide +kernel

/-- This hardware's ALPHA lies between 1/16 and 1/8. -/
theorem alphaDefault_bounds :
    2 ^ 1070 ≤ magOf Params.alphaDefault.toNat ∧ magOf Params.alphaDefault.toNat ≤ 2 ^ 1071 := by decide +kernel

theorem silenceDrop_mono {d d' : Nat} (h : d ≤ d') : silenceDrop d ≤ silenceDrop d' :=
  roundMag_mono _ (Nat.mul_le_mul_left _ (magOf_le_iff.mpr h))

/-- In silence a positive decayed peak is lowered by `silenceDrop`, and the difference rounded (R87(c)). -/
theorem decayUpdate_silence {d : F64} (hd : decayInRange d = true) (positive : 0 < d.toNat) :
    (decayUpdate Params.alphaDefault d 0).toNat = roundMag 0 (magOf d.toNat - magOf (silenceDrop d.toNat)) := by
  have silent : (peakToF64 0).toNat = 0 := by decide +kernel
  have hdinf : d.toNat ≤ infPattern := ((decayInRange_iff d).mp hd).trans (by decide)
  rw [decayUpdate_toNat_eq_of_fall alphaDefault_legal hd (by rwa [silent]), silent, magOf_zero, Nat.sub_zero,
    roundMag_magOf hdinf]
  rfl

/-- The drop leaves at least 4 units: it is at most the pattern that lies 4 below. -/
theorem silenceDrop_le {d : Nat} (h : 5 ≤ d) (hd : d < infPattern) : silenceDrop d ≤ d - 4 := by
  obtain ⟨-, eighth⟩ := alphaDefault_bounds
  have near : magOf d ≤ 2 ^ 3 * magOf (d - 4) := by
    rcases Nat.lt_or_ge d (2 ^ 53) with small | large
    · rw [magOf_small small, magOf_small (by omega)]
      omega
    · have below := magOf_le_iff.mpr (by omega : d - 2 ^ 52 ≤ d - 4)
      rw [magOf_double large]
      omega
  refine roundMag_le (by omega) ?_
  calc magOf Params.alphaDefault.toNat * magOf d ≤ 2 ^ 1071 * (2 ^ 3 * magOf (d - 4)) := Nat.mul_le_mul eighth near
    _ = magOf (d - 4) * 2 ^ 1074 := two_pow_mul_two_pow_mul (t := 1071) (k := 3) (s := 1074) rfl (magOf (d - 4))

/-- From 5 units on, the drop reaches the next lower value: a subnormal's drop is at least one unit, and a larger value's at
least its distance to the next lower one. -/
theorem le_magOf_silenceDrop {d : Nat} (h : 5 ≤ d) (hd : d < infPattern) :
    magOf d ≤ magOf (d - 1) + magOf (silenceDrop d) := by
  rcases Nat.lt_or_ge d (2 ^ 53) with small | large
  · have one : silenceDrop 5 = 1 := by decide +kernel
    have drop : magOf 1 ≤ magOf (silenceDrop d) := magOf_le_iff.mpr (one ▸ silenceDrop_mono h)
    rw [magOf_small (by norm_num)] at drop
    rw [magOf_small small, magOf_small (by omega)]
    omega
  · obtain ⟨t, step, size, ht⟩ := magOf_succ_eq (p := d - 1) (by omega)
    rw [Nat.sub_add_cancel (by omega)] at step
    obtain ⟨g, hg, gap⟩ := representable_of_sig (q := 1) (t := t) (by norm_num) (by unfold infPattern at hd; omega)
    rw [one_mul] at gap
    obtain ⟨sixteenth, -⟩ := alphaDefault_bounds
    have drop : g ≤ silenceDrop d := by
      refine le_roundMag hg.le ?_
      calc magOf g * 2 ^ 1074 = 2 ^ 1070 * (2 ^ 4 * 2 ^ t) := by
            rw [gap]
            exact (two_pow_mul_two_pow_mul (t := 1070) (k := 4) (s := 1074) rfl (2 ^ t)).symm
        _ ≤ magOf Params.alphaDefault.toNat * magOf d := Nat.mul_le_mul sixteenth (by omega)
    have := magOf_le_iff.mpr drop
    omega

/-- Settles O38: from 5 units on, the drop is a step of at least one value and leaves at least 4 units; up to 4 units it rounds
to zero. -/
theorem silenceDecaysStrictly : Obligations.SilenceDecaysStrictly := by
  intro d hd
  have hdinf : d.toNat < infPattern := ((decayInRange_iff d).mp hd).trans_lt (by decide)
  refine ⟨fun atLeastFive => ?_, fun atMostFour => ?_⟩
  · have inRange := decayUpdate_inRange (peak := 0) alphaDefault_legal hd (by decide)
    rw [lt_iff_of_inRange inRange hd, decayUpdate_silence hd (by omega)]
    have reaches := le_magOf_silenceDrop atLeastFive hdinf
    have leaves : magOf (silenceDrop d.toNat) + 4 ≤ magOf d.toNat :=
      calc magOf (silenceDrop d.toNat) + 4 ≤ 4 + magOf (d.toNat - 4) := by
            have := magOf_le_iff.mpr (silenceDrop_le atLeastFive hdinf)
            omega
        _ ≤ magOf (4 + (d.toNat - 4)) := magOf_strictMono.add_le_nat _ _
        _ = magOf d.toNat := by rw [Nat.add_sub_cancel' (by omega)]
    have lower : roundMag 0 (magOf d.toNat - magOf (silenceDrop d.toNat)) ≤ d.toNat - 1 :=
      roundMag_le (by omega) (by rw [pow_zero, mul_one]; omega)
    refine ⟨by omega, le_roundMag (by decide) ?_⟩
    rw [magOf_small (by norm_num), pow_zero, mul_one]
    omega
  · rcases Nat.eq_zero_or_pos d.toNat with zero | positive
    · have silent : d = peakToF64 0 := BitVec.eq_of_toNat_eq (zero.trans (by decide +kernel))
      rw [silent]
      exact decayUpdate_peakToF64 alphaDefault_legal (by decide)
    · have four : silenceDrop 4 = 0 := by decide +kernel
      have drop : silenceDrop d.toNat = 0 := Nat.le_zero.mp (four ▸ silenceDrop_mono atMostFour)
      refine BitVec.eq_of_toNat_eq ?_
      rw [decayUpdate_silence hd positive, drop, magOf_zero, Nat.sub_zero, roundMag_magOf hdinf.le]

end Sys2Proof.Machine
end

section
/-! PROOFS of the statements on 60_exceptions.md (R100 to R102, R108, R112): the configuration check and what follows
from it, legal runs that never stop, and waits. -/

namespace Sys2Proof.Machine

/-! ### The configuration check (R100, R101) -/

theorem mem_checkWindow {c : Condition} {n : Int} :
    c ∈ checkWindow n ↔
      (c = .cfgWindowNotPositive ∧ n ≤ 0) ∨ (c = .cfgWindowNotMultipleOf4 ∧ 0 < n ∧ ¬ (4 : Int) ∣ n) := by
  rw [Int.dvd_iff_emod_eq_zero, checkWindow]
  rcases lt_or_ge 0 n with positive | notPositive
  · by_cases multiple : n % 4 = 0 <;> simp [positive, multiple]
  · simp [notPositive, Int.not_lt.mpr notPositive]

theorem mem_checkRate {c : Condition} {r : F64} :
    c ∈ checkRate r ↔ c = .cfgRateNotPositive ∧ ¬ (1 ≤ r.toNat ∧ r.toNat < 0x7FF0000000000000) := by
  rw [← checkRate_nil_iff, checkRate]
  split_ifs <;> simp

theorem mem_checkAlpha {c : Condition} {a : F64} :
    c ∈ checkAlpha a ↔ c = .cfgAlphaOutOfRange ∧ ¬ (1 ≤ a.toNat ∧ a.toNat ≤ 0x3FE0000000000000) := by
  rw [← checkAlpha_nil_iff, checkAlpha]
  split_ifs <;> simp

/-- The check reports a code exactly where the code's own test fails. -/
theorem mem_configCheck {c : Condition} {p : Params} :
    c ∈ configCheck p ↔
      ((c = .cfgWindowNotPositive ∧ p.windowBytes ≤ 0) ∨
        (c = .cfgWindowNotMultipleOf4 ∧ 0 < p.windowBytes ∧ ¬ (4 : Int) ∣ p.windowBytes)) ∨
      (c = .cfgRateNotPositive ∧ ¬ (1 ≤ p.sampleRateHz.toNat ∧ p.sampleRateHz.toNat < 0x7FF0000000000000)) ∨
      (c = .cfgAlphaOutOfRange ∧ ¬ (1 ≤ p.alpha.toNat ∧ p.alpha.toNat ≤ 0x3FE0000000000000)) := by
  rw [configCheck, List.mem_append, List.mem_append, mem_checkWindow, mem_checkRate, mem_checkAlpha, or_assoc]

/-- The conditions a check can report, in the order of R100. -/
def configConditions : List Condition :=
  [.cfgWindowNotPositive, .cfgWindowNotMultipleOf4, .cfgRateNotPositive, .cfgAlphaOutOfRange]

/-- The check reports some of them, in their order: each test drops its own or keeps it (the two tests of the window never
report both). -/
theorem configCheck_sublist (p : Params) : (configCheck p).Sublist configConditions := by
  have window : (checkWindow p.windowBytes).Sublist [.cfgWindowNotPositive, .cfgWindowNotMultipleOf4] := by
    unfold checkWindow
    split_ifs <;> simp
  have rate : (checkRate p.sampleRateHz).Sublist [.cfgRateNotPositive] := by
    unfold checkRate
    split_ifs <;> simp
  have alpha : (checkAlpha p.alpha).Sublist [.cfgAlphaOutOfRange] := by
    unfold checkAlpha
    split_ifs <;> simp
  exact (window.append rate).append alpha

theorem elaborate_legal {p : Params} (legal : configCheck p = []) : elaborate p = .next (State.resetWith p) := by
  rw [elaborate, legal]

theorem elaborate_illegal {p : Params} (illegal : configCheck p ≠ []) :
    elaborate p = .refused (.illegalConfiguration (configCheck p)) := by
  obtain ⟨c, cs, codes⟩ := List.exists_cons_of_ne_nil illegal
  rw [elaborate, codes]

/-- Settles O13: a code is reported by its own test alone, and the order and the range of the codes are those of
`configConditions`. -/
theorem configCheckReportsEveryCode : Obligations.ConfigCheckReportsEveryCode := by
  refine fun p => ⟨?_, ?_, ?_, ?_, fun c reported => ?_, ?_, elaborate_legal, elaborate_illegal⟩
  · simp [mem_configCheck]
  · simp [mem_configCheck]
  · simp [mem_configCheck]
  · simp [mem_configCheck]
  · have inRange : ∀ c ∈ configConditions, c.code ∈ [0x11#8, 0x12#8, 0x13#8, 0x14#8] := by decide
    exact inRange c ((configCheck_sublist p).subset reported)
  · have rising : configConditions.Pairwise (fun a b => a.code < b.code) := by decide
    exact rising.sublist (configCheck_sublist p)

/-- Settles O14: the check comes before the ports are looked at (`step_illegal`). -/
theorem illegalConfigurationHasNoStep : Obligations.IllegalConfigurationHasNoStep := by
  intro s illegal
  obtain ⟨c, cs, codes⟩ := List.exists_cons_of_ne_nil illegal
  rw [step_illegal codes, codes]

/-! ### Legal runs (R102) -/

/-- With a status the block produces and no refusal recorded, an event is accepted or held, and either completes. -/
theorem exec_completes {s : State} (produced : s.status ≠ statusReserved) (unmarked : s.refusal = none) (i : Instr) :
    ∃ t, exec i s = .next t := by
  cases ready : s.evReady with
  | true =>
    obtain ⟨running, free⟩ := s.evReady_iff.mp ready
    exact ⟨_, exec_accepting ⟨running, free, unmarked⟩ i⟩
  | false => exact ⟨s, exec_holding (State.holding_of_not_ready ready produced) i⟩

/-- Settles O17: reset, output acceptance and a wait always complete, and an event does by `exec_completes`. -/
theorem legalRunsNeverStop : Obligations.LegalRunsNeverStop := by
  intro s legal produced unmarked
  rw [step_legal legal]
  split_ifs
  · exact ⟨_, rfl⟩
  · exact ⟨_, rfl⟩
  · exact exec_completes (s := s.dropInput) produced unmarked _
  · exact ⟨_, rfl⟩

/-! ### Waits (R112) -/

/-- A step in which no port acts only uses up its sample. -/
theorem step_wait {s : State} (legal : s.Legal) (noReset : s.sample.rst = false) (notReady : s.sample.outReady = false)
    (noOffer : s.sample.evValid = false) : step s = .next s.dropInput := by
  rw [step_legal legal, noReset, notReady, noOffer]
  rfl

theorem State.dropInput_of_input_nil {s : State} (silent : s.input = []) : s.dropInput = s := by
  rw [State.dropInput, silent, List.tail_nil, ← silent]

/-- Settles O12: with no sample planned the port sample is the idle one, and there is none to use up. -/
theorem idleStepChangesNothing : Obligations.IdleStepChangesNothing := by
  refine fun s legal => ⟨step_wait legal, fun silent => ?_⟩
  have idle : s.sample = .idle := by rw [State.sample, silent]; rfl
  rw [step_wait legal (congrArg HostInput.rst idle) (congrArg HostInput.outReady idle) (congrArg HostInput.evValid idle),
    State.dropInput_of_input_nil silent]

end Sys2Proof.Machine
end

section
/-! PROOFS of the statements on 70_reset_and_hazards.md (R114, R116, R126): reset, marked runs, and the terminal statuses. -/

namespace Sys2Proof.Machine

/-- Reset comes before everything but the configuration check, in every status (R108, R114, R116). -/
theorem step_reset {s : State} (legal : s.Legal) (reset : s.sample.rst = true) :
    step s = .next s.dropInput.resetBlock := by
  rw [step_legal legal, if_pos reset]

/-- Settles O8: the step is a reset, whose state is given by the definition of `resetBlock`. -/
theorem resetWritesEveryElement : Obligations.ResetWritesEveryElement := fun _ legal reset => step_reset legal reset

/-- Settles O16: acceptance, which every event shares, refuses where the mark is set. -/
theorem markedRunStaysRefused : Obligations.MarkedRunStaysRefused := by
  intro i s c running free marked
  rw [exec_eq_acceptEvent]
  exact acceptEvent_marked running free marked _

/-- A step without reset and without an output acceptance only uses up its sample where events are held: an offered event has
no effect (R64, R112). -/
theorem step_holding {s : State} (legal : s.Legal) (holding : s.Holding) (noReset : s.sample.rst = false)
    (noAcceptance : (s.sample.outReady && s.outPending) = false) : step s = .next s.dropInput := by
  have noOutput : (s.sample.outReady && s.outValid) = false := noAcceptance
  rw [step_legal legal, noReset, noOutput]
  cases s.sample.evValid with
  | true => exact exec_holding (s := s.dropInput) holding _
  | false => rfl

/-- Settles O44: an acceptance of a pending tuple is O10, and without one the step is `step_holding`, as both terminal statuses
hold events. -/
theorem terminalStatusesAreInert : Obligations.TerminalStatusesAreInert := by
  intro s legal terminal noReset
  cases accepts : s.sample.outReady && s.outPending with
  | true =>
    obtain ⟨ready, pending⟩ := Bool.and_eq_true_iff.mp accepts
    obtain ⟨accepted, -⟩ := outputAcceptanceClearsPending s legal noReset ready
    rw [accepted pending, ready, Bool.not_true, Bool.and_false]
  | false =>
    have holding : s.Holding := terminal.imp_right Or.inl
    have kept : (s.outPending && !s.sample.outReady) = s.outPending := by grind
    rw [step_holding legal holding noReset accepts, kept, State.dropInput]

end Sys2Proof.Machine
end

section
/-! PROOFS of the statements on 95_test_vectors.md (L2-1): the event words that the spec lists with their decoding. -/

namespace Sys2Proof

/-- Settles O5: each word lies in the arm of `decode` (R57) that its KIND selects, and the two words of EOS and of FAULT with a
nonzero DATA lie in the same arm as those without. -/
theorem specWordsDecode : Obligations.SpecWordsDecode :=
  ⟨decode_of_kind_byte rfl, decode_of_kind_byte rfl, decode_of_kind_byte rfl,
    decode_of_kind_eos rfl, decode_of_kind_eos rfl,
    decode_of_kind_fault rfl, decode_of_kind_fault rfl,
    decode_of_kind_reserved rfl, decode_of_kind_reserved rfl⟩

end Sys2Proof
end
